-- ==== Sys2Proof/Word.lean ====
section
/-! DEFINITION. The words the block moves: a 64-bit slot, a 7-bit slot index, a bus transaction, and the format
code (spec 00_scope.md R2, R6; 30_encoding.md R52). -/

namespace Sys2Proof

/-- One register slot: every access moves exactly 64 bits (20_memory.md R41). -/
abbrev Word := BitVec 64

/-- A slot index A[6:0] (00_scope.md R6). -/
abbrev Slot := BitVec 7

/-- A bus transaction: the tuple WE, A[6:0], D[63:0] (30_encoding.md R52). `we = true` is a write. -/
structure Transaction where
  we : Bool
  a  : Slot
  d  : Word
deriving DecidableEq, Repr

/-- The two numeric formats, FMT = 0 and FMT = 1 (00_scope.md R2). -/
inductive Format where
  | single
  | double
deriving DecidableEq, Repr

end Sys2Proof
end

