-- ==== Sys2Proof/Syntax.lean ====
section
/-! DEFINITION. The instructions: one constructor per row of spec/opcode_table.json. The six CMD rows are command
words carried as the data of a WR to CMD; the two BUS rows are the host's transactions (30_encoding.md R51). -/

namespace Sys2Proof

inductive Instr where
  /-- NOP, CMD 0x00 (40_bus_access.md R71). -/
  | nop
  /-- DECS, CMD 0x01: decompose IN[31:0] as binary32 (41_decompose.md R77). -/
  | decs
  /-- DECD, CMD 0x02: decompose IN as binary64 (41_decompose.md R78). -/
  | decd
  /-- HEXCLR, CMD 0x10: clear the hex loader (42_hex_encode.md R93). -/
  | hexclr
  /-- HEXDIG c, CMD 0x11: push the character whose code is IMM8 = c (42_hex_encode.md R94). -/
  | hexdig (c : BitVec 8)
  /-- HEXEND, CMD 0x12: IN <- Pack (42_hex_encode.md R97). -/
  | hexend
  /-- RD A: host bus read (40_bus_access.md R66). -/
  | rd (a : Slot)
  /-- WR A, D: host bus write (40_bus_access.md R67). -/
  | wr (a : Slot) (d : Word)
deriving DecidableEq, Repr

end Sys2Proof
end

