-- ==== Sys2Proof/WellFormed.lean ====
section
/-! DEFINITION. Well-formedness. An instruction's operands are bit vectors of exactly the encoded width, so every term
of `Instr` is well formed: every WE, A pair is a valid transaction (30_encoding.md R53) and any IMM8 is a legal HEXDIG
(R59). What can be ill formed is the DATA of a write to CMD: `CommandData.wellFormed` says which of the 2^64 values are
legal command words, one named check per clause of 30_encoding.md R60. -/

namespace Sys2Proof

/-- Every instruction is well formed (30_encoding.md R53, R59). -/
def Instr.wellFormed : Instr → Bool
  | .nop      => true
  | .decs     => true
  | .decd     => true
  | .hexclr   => true
  | .hexdig _ => true
  | .hexend   => true
  | .rd _     => true
  | .wr _ _   => true

/-- D[63:32] = 0 (30_encoding.md R55). -/
def CommandData.highZero (d : Word) : Bool := d.toNat / 2 ^ 32 == 0

/-- RSV, C[31:16], is 0 (30_encoding.md R54). -/
def CommandData.reservedZero (d : Word) : Bool := d.toNat / 2 ^ 16 % 2 ^ 16 == 0

/-- OP, C[7:0]. -/
def CommandData.op (d : Word) : Nat := d.toNat % 2 ^ 8

/-- IMM8, C[15:8]. -/
def CommandData.imm8 (d : Word) : Nat := d.toNat / 2 ^ 8 % 2 ^ 8

/-- OP is one of the six assigned opcodes (30_encoding.md R57). -/
def CommandData.opAssigned (d : Word) : Bool :=
  [0x00, 0x01, 0x02, 0x10, 0x11, 0x12].contains (CommandData.op d)

/-- IMM8 is 0 for every opcode other than HEXDIG (30_encoding.md R54). -/
def CommandData.immAllowed (d : Word) : Bool :=
  CommandData.op d == 0x11 || CommandData.imm8 d == 0

/-- A legal value of the data of a WR to CMD: none of the four clauses of 30_encoding.md R60 holds. -/
def CommandData.wellFormed (d : Word) : Bool :=
  CommandData.highZero d && CommandData.reservedZero d && CommandData.opAssigned d && CommandData.immAllowed d

end Sys2Proof
end

