-- ==== Sys2Proof/Decode.lean ====
section
/-! DEFINITION. The two decoders of 30_encoding.md R51, total on every word and rejecting by name, and after them the
encoder. A bus transaction is decoded by WE alone (R53); the data of a write to CMD is decoded by R59. -/

namespace Sys2Proof

/-- The result of the command decoder, `decode(D) : Command` (30_encoding.md R59). -/
inductive Command where
  | nop
  | decs
  | decd
  | hexclr
  | hexdig (c : BitVec 8)
  | hexend
deriving DecidableEq, Repr

/-- Why a command word is ILLEGAL: the four clauses of 30_encoding.md R60. -/
inductive DecodeError where
  /-- D[63:32] ≠ 0. -/
  | dataHighNonzero
  /-- C[31:16] ≠ 0. -/
  | reservedNonzero
  /-- OP is unassigned. -/
  | opcodeUnassigned
  /-- IMM8 ≠ 0 with an opcode other than HEXDIG. -/
  | immediateNonzero
deriving DecidableEq, Repr

/-- `(imm == 0) ? c : ILLEGAL` of 30_encoding.md R59. -/
def withoutImmediate (imm : BitVec 8) (c : Command) : Except DecodeError Command :=
  if imm = 0 then .ok c else .error .immediateNonzero

/-- The case on OP of 30_encoding.md R59. -/
def decodeOpcode (op imm : BitVec 8) : Except DecodeError Command :=
  if op = 0x00 then withoutImmediate imm .nop
  else if op = 0x01 then withoutImmediate imm .decs
  else if op = 0x02 then withoutImmediate imm .decd
  else if op = 0x10 then withoutImmediate imm .hexclr
  else if op = 0x11 then .ok (.hexdig imm)
  else if op = 0x12 then withoutImmediate imm .hexend
  else .error .opcodeUnassigned

/-- `decode(D)` of 30_encoding.md R59, total over all 2^64 values of D. -/
def decodeCommand (d : Word) : Except DecodeError Command :=
  if d.extractLsb' 32 32 ≠ 0 then .error .dataHighNonzero
  else if d.extractLsb' 16 16 ≠ 0 then .error .reservedNonzero
  else decodeOpcode (d.extractLsb' 0 8) (d.extractLsb' 8 8)

/-- The instruction a command is. -/
def Command.toInstr : Command → Instr
  | .nop      => .nop
  | .decs     => .decs
  | .decd     => .decd
  | .hexclr   => .hexclr
  | .hexdig c => .hexdig c
  | .hexend   => .hexend

/-- The bus decoder: WE alone chooses RD or WR (30_encoding.md R53). It is total. -/
def decodeBus (t : Transaction) : Instr :=
  if t.we then .wr t.a t.d else .rd t.a

/-- The transaction whose 8-bit pattern WE, A[6:0] (WE in bit 7) is `h` and whose data is `d` (30_encoding.md R52). -/
def Transaction.ofHeader (h : BitVec 8) (d : Word) : Transaction :=
  { we := h.getLsbD 7, a := h.extractLsb' 0 7, d := d }

/-- The 8-bit pattern WE, A[6:0] of a transaction (30_encoding.md R52). -/
def Transaction.header (t : Transaction) : BitVec 8 := BitVec.ofBool t.we ++ t.a

/-- The transaction that carries a command: `WR CMD, d` (30_encoding.md R63). -/
def Transaction.command (d : Word) : Transaction := { we := true, a := 0x00, d := d }

/-- The two kinds of object the block decodes (30_encoding.md R51). -/
inductive Encoded where
  /-- (a) a bus transaction. -/
  | bus (t : Transaction)
  /-- (b) the data of a bus write to CMD. -/
  | cmd (d : Word)
deriving DecidableEq, Repr

/-- The decoder of both kinds. -/
def decode : Encoded → Except DecodeError Instr
  | .bus t => .ok (decodeBus t)
  | .cmd d => (decodeCommand d).map Command.toInstr

/-- The transaction that presents an encoded object on the bus. -/
def Encoded.transaction : Encoded → Transaction
  | .bus t => t
  | .cmd d => Transaction.command d

/-- The command word of 30_encoding.md R58, as the 64-bit data of the write that carries it. -/
def Command.data : Command → Word
  | .nop      => 0x00000000
  | .decs     => 0x00000001
  | .decd     => 0x00000002
  | .hexclr   => 0x00000010
  | .hexdig c => c.setWidth 64 <<< 8 ||| 0x00000011
  | .hexend   => 0x00000012

/-- The encoder. The data bits of a RD are ignored (30_encoding.md R52); the encoder gives them 0 (log entry 9). -/
def encode : Instr → Encoded
  | .nop      => .cmd (Command.data .nop)
  | .decs     => .cmd (Command.data .decs)
  | .decd     => .cmd (Command.data .decd)
  | .hexclr   => .cmd (Command.data .hexclr)
  | .hexdig c => .cmd (Command.data (.hexdig c))
  | .hexend   => .cmd (Command.data .hexend)
  | .rd a     => .bus { we := false, a := a, d := 0 }
  | .wr a d   => .bus { we := true, a := a, d := d }

/-- A row of the table of complete legal command words (30_encoding.md R58). -/
structure CommandRow where
  mnemonic : String
  pattern  : BitVec 32
  mask     : BitVec 32
deriving DecidableEq, Repr

/-- The table of 30_encoding.md R58. -/
def commandTable : List CommandRow :=
  [ { mnemonic := "NOP",    pattern := 0x00000000, mask := 0xFFFFFFFF },
    { mnemonic := "DECS",   pattern := 0x00000001, mask := 0xFFFFFFFF },
    { mnemonic := "DECD",   pattern := 0x00000002, mask := 0xFFFFFFFF },
    { mnemonic := "HEXCLR", pattern := 0x00000010, mask := 0xFFFFFFFF },
    { mnemonic := "HEXDIG", pattern := 0x00000011, mask := 0xFFFF00FF },
    { mnemonic := "HEXEND", pattern := 0x00000012, mask := 0xFFFFFFFF } ]

/-- Whether a 32-bit command word matches a row. -/
def CommandRow.matchesWord (r : CommandRow) (c : BitVec 32) : Bool := c &&& r.mask == r.pattern

/-- The mnemonic of the table's row a command belongs to. -/
def Command.mnemonic : Command → String
  | .nop      => "NOP"
  | .decs     => "DECS"
  | .decd     => "DECD"
  | .hexclr   => "HEXCLR"
  | .hexdig _ => "HEXDIG"
  | .hexend   => "HEXEND"

/-- The transaction that stands for a row's bits `w` of spec/opcode_table.json: a BUS row has 8 bits (WE, A; the data
bits are 0), a CMD row 32 (carried by a WR to CMD whose D[63:32] is 0). -/
def tableTransaction (nbits w : Nat) : Transaction :=
  if nbits = 8 then Transaction.ofHeader (BitVec.ofNat 8 w) 0 else Transaction.command (BitVec.ofNat 64 w)

/-- The instruction the decoders read from a table row's bits. -/
def decodeTableWord (nbits w : Nat) : Option Instr :=
  if nbits = 8 then some (decodeBus (tableTransaction nbits w))
  else if nbits = 32 then (decode (.cmd (BitVec.ofNat 64 w))).toOption
  else none

end Sys2Proof
end

