-- ==== Sys2Proof/Machine/State.lean ====
section
/-! DEFINITION. The state of BFC as plain data: every register slot of 10_state.md R15, the internal state of R31, the
data port of 30_encoding.md R52, and the model's own two fields (the events still to come, and whether a reset has been
seen). -/

namespace Sys2Proof.Machine

/-- The fields of STATUS that have storage (10_state.md R17). The reserved bits 7:3 and 63:12 read 0 and ignore
writes, so they have none (R33). -/
structure Status where
  /-- Bit 0: 1 while the accumulator has steps left. -/
  busy   : Bool
  /-- Bit 1: 1 once the last step of the latest DECS/DECD is done. -/
  done   : Bool
  /-- Bit 2: the format of the latest accepted DECS/DECD. -/
  fmt    : Format
  /-- Bit 8, sticky: an illegal command word was written. -/
  ill    : Bool
  /-- Bit 9, sticky: a DECS or DECD was dropped because BUSY = 1. -/
  ovr    : Bool
  /-- Bit 10, sticky: a HEXDIG carried a code that is not a hex digit. -/
  baddig : Bool
  /-- Bit 11, sticky: an unmapped slot was accessed or a read-only slot written. -/
  badreg : Bool
deriving DecidableEq, Repr

/-- An event of the one total order of 20_memory.md R45: a HOST transaction, an ENGINE step, or a reset
(70_reset_and_hazards.md R125). -/
inductive Event where
  | host (t : Transaction)
  | engine
  | reset
deriving DecidableEq, Repr

structure State where
  /-- STATUS, slot 0x01 (R17). -/
  status    : Status
  /-- IN, slot 0x02 (R18). -/
  inReg     : Word
  /-- SRC, slot 0x03 (R19). -/
  src       : Word
  /-- SIGN, slot 0x04 (R20). -/
  sign      : BitVec 1
  /-- BEXP, slot 0x05 (R21). -/
  bexp      : BitVec 11
  /-- UEXP, slot 0x06, two's complement (R22). -/
  uexp      : Word
  /-- MFIELD, slot 0x07 (R23). -/
  mfield    : BitVec 52
  /-- MANT, slot 0x08, a binary64 pattern (R24). -/
  mant      : Word
  /-- WEIGHT, slot 0x09, a binary64 pattern (R25). -/
  weight    : Word
  /-- KCNT, slot 0x0A (R26). -/
  kcnt      : BitVec 6
  /-- TRACE[1..52], slots 0x40..0x73 (R30); TRACE[k] is entry k - 1. -/
  trace     : Vector Word 52
  /-- ACC, internal (R31), as the fixed-point integer ACC × 2^52. -/
  acc       : BitVec 53
  /-- w, internal (R31), as the fixed-point integer w × 2^52. -/
  w         : BitVec 53
  /-- HN, HEXST[4:0] (R28). -/
  hn        : BitVec 5
  /-- HD1, HEXST[11:8] (R28). -/
  hd1       : BitVec 4
  /-- HS, HEXSR, slot 0x0D (R29). -/
  hs        : Word
  /-- bus_rdata: what the latest RD returned (30_encoding.md R52; 40_bus_access.md R66). -/
  rdata     : Word
  /-- The MODEL's own field: whether a first reset has happened (70_reset_and_hazards.md R126; log entry 6). -/
  resetSeen : Bool
  /-- The MODEL's own field: the events still to come, oldest first (20_memory.md R45; log entry 1). -/
  events    : List Event
deriving DecidableEq, Repr

/-- There is no fault: the block raises no exception and takes no trap (60_exceptions.md R111), and no behaviour of it is
a fault or stuck (93_implementation_defined.md, after U12). Nobody raises one; that is safe. -/
inductive Fault where
deriving DecidableEq, Repr

inductive Refusal where
  /-- Raised by `exec` alone, for an instruction that has no meaning yet; no arm raises it. Safe. -/
  | notModelled (mnemonic : String)
  /-- Raised by `step` for a HOST transaction or an ENGINE step before the first reset, which the spec tells a model to
  refuse (70_reset_and_hazards.md R126; 93_implementation_defined.md U1). Safe. -/
  | beforeFirstReset
deriving DecidableEq, Repr

/-- STATUS after reset: 0 (10_state.md R34). -/
def Status.reset : Status :=
  { busy := false, done := false, fmt := .single, ill := false, ovr := false, baddig := false, badreg := false }

/-- The machine right after reset (10_state.md R34). ACC and w are undefined there and not observable: 0 is a DESIGN
CHOICE (log entry 3); so is 0 for `rdata` (log entry 4). -/
def State.reset : State :=
  { status    := Status.reset
    inReg     := 0
    src       := 0
    sign      := 0
    bexp      := 0
    uexp      := 0
    mfield    := 0
    mant      := 0
    weight    := 0
    kcnt      := 0
    trace     := Vector.replicate 52 0
    acc       := 0
    w         := 0
    hn        := 0
    hd1       := 0
    hs        := 0
    rdata     := 0
    resetSeen := true
    events    := [] }

end Sys2Proof.Machine
end

