-- ==== Sys2Proof/Machine/Operands.lean ====
section
/-! DEFINITION. Operands: the format parameters, the slot map's names and kinds, the hex digit alphabet, the slicer's
fields, the binary64 encoding of the accumulator's values, and the packing of hex digits. -/

namespace Sys2Proof.Machine

/-! ### Format parameters (00_scope.md R5) -/

/-- The FMT code: single 0, double 1 (00_scope.md R2). -/
def formatCode : Format → Nat
  | .single => 0
  | .double => 1

/-- SB, the position of the sign bit. -/
def signPos : Format → Nat
  | .single => 31
  | .double => 63

/-- E, the width of the biased exponent. -/
def expWidth : Format → Nat
  | .single => 8
  | .double => 11

/-- N, the width of the stored mantissa; it is also NTOT, the number of accumulator steps (10_state.md R17). -/
def ntot : Format → Nat
  | .single => 23
  | .double => 52

/-- BIAS. -/
def bias : Format → Int
  | .single => 127
  | .double => 1023

/-! ### The slot map (10_state.md R15) -/

def slotCMD    : Slot := 0x00
def slotSTATUS : Slot := 0x01
def slotIN     : Slot := 0x02
def slotSRC    : Slot := 0x03
def slotSIGN   : Slot := 0x04
def slotBEXP   : Slot := 0x05
def slotUEXP   : Slot := 0x06
def slotMFIELD : Slot := 0x07
def slotMANT   : Slot := 0x08
def slotWEIGHT : Slot := 0x09
def slotKCNT   : Slot := 0x0A
def slotID     : Slot := 0x0B
def slotHEXST  : Slot := 0x0C
def slotHEXSR  : Slot := 0x0D

/-- The slot of TRACE[k], 0x40 + k - 1, for k = 1..52 (10_state.md R30). -/
def slotTRACE (k : Nat) : Slot := BitVec.ofNat 7 (0x3F + k)

/-- Slots 0x40..0x73 hold TRACE[1]..TRACE[52] (10_state.md R15, R30). -/
def isTraceSlot (a : Slot) : Bool := decide (0x40 ≤ a.toNat ∧ a.toNat ≤ 0x73)

/-- Slots 0x0E..0x3F and 0x74..0x7F are unmapped (10_state.md R32). -/
def isUnmapped (a : Slot) : Bool :=
  decide ((0x0E ≤ a.toNat ∧ a.toNat ≤ 0x3F) ∨ 0x74 ≤ a.toNat)

/-- Slots 0x03..0x0D and 0x40..0x73 are read-only (40_bus_access.md R67, R69). -/
def isReadOnly (a : Slot) : Bool :=
  decide ((0x03 ≤ a.toNat ∧ a.toNat ≤ 0x0D) ∨ (0x40 ≤ a.toNat ∧ a.toNat ≤ 0x73))

/-- ID: "BFC" in ASCII and the interface revision 0x01 (10_state.md R27). -/
def idConstant : Word := 0x0000000042464301

/-- TRACE[k] for k = 1..52, and 0 for any other k. -/
def traceEntry (tr : Vector Word 52) (k : Nat) : Word :=
  if k = 0 then 0 else (tr[k - 1]?).getD 0

/-- The trace after TRACE[k] <- v, for k = 1..52; unchanged for any other k. -/
def traceWrite (tr : Vector Word 52) (k : Nat) (v : Word) : Vector Word 52 :=
  if k = 0 then tr else tr.setIfInBounds (k - 1) v

/-! ### Hex digits (00_scope.md R10) -/

/-- `hexval(c)`: the digit a character code stands for, or none if it is not a hex digit code. -/
def hexval (c : BitVec 8) : Option (BitVec 4) :=
  if 0x30 ≤ c.toNat ∧ c.toNat ≤ 0x39 then some (BitVec.ofNat 4 (c.toNat - 0x30))
  else if 0x41 ≤ c.toNat ∧ c.toNat ≤ 0x46 then some (BitVec.ofNat 4 (c.toNat - 0x41 + 10))
  else if 0x61 ≤ c.toNat ∧ c.toNat ≤ 0x66 then some (BitVec.ofNat 4 (c.toNat - 0x61 + 10))
  else none

/-! ### The operand of a decomposition and the slicer (41_decompose.md R76, R80) -/

/-- What DecStart latches into SRC: the 32-bit view of IN zero-extended, or IN (10_state.md R19). -/
def latchSource (f : Format) (input : Word) : Word :=
  match f with
  | .single => (input.extractLsb' 0 32).setWidth 64
  | .double => input

/-- SRC[SB]. -/
def sliceSign (f : Format) (src : Word) : BitVec 1 := src.extractLsb' (signPos f) 1

/-- SRC[SB-1 : N]. -/
def sliceBexp (f : Format) (src : Word) : BitVec 11 := (src.extractLsb' (ntot f) (expWidth f)).setWidth 11

/-- `sext_64(SRC[SB-1 : N] - BIAS)`, an integer subtraction. -/
def sliceUexp (f : Format) (src : Word) : Word := BitVec.ofInt 64 ((sliceBexp f src).toNat - bias f)

/-- SRC[N-1 : 0]. -/
def sliceMfield (f : Format) (src : Word) : BitVec 52 := (src.extractLsb' 0 (ntot f)).setWidth 52

/-! ### `enc64` (00_scope.md R9) -/

/-- `enc64(n / 2^52)` for a fixed-point value n < 2^53: with p the place of n's top bit, the biased exponent is
1023 - (52 - p) and the mantissa field is n's bits below p moved up to bit 51. For n = 2^52 + F this is the first case
of R9, and for n = 2^(52-k) the second. Zero, which no accumulator value is, encodes as 0 (log entry 12). -/
def enc64 (n : BitVec 53) : Word :=
  if n.toNat = 0 then 0
  else
    let p := n.toNat.log2
    BitVec.ofNat 64 ((1023 - (52 - p)) * 2 ^ 52 + (n.toNat * 2 ^ (52 - p) - 2 ^ 52))

/-- The fixed-point form of the value 1, which ACC and w take at acceptance (41_decompose.md R81). -/
def fixedOne : BitVec 53 := 0x10000000000000

/-! ### `Pack(HN, HD1, HS)` (42_hex_encode.md R98) -/

def packHex (hn : BitVec 5) (hd1 : BitVec 4) (hs : Word) : Word :=
  let n := hn.toNat
  if n = 0 then 0
  else if n = 17 then hs
  else if n % 2 = 0 then hs
  else hd1.setWidth 64 <<< (4 * n) ||| BitVec.ofNat 64 (hs.toNat % 2 ^ (4 * (n - 1)))

end Sys2Proof.Machine
end

