-- ==== Sys2Proof/Machine/Flags.lean ====
section
/-! DEFINITION. STATUS: its value as a word, setting a sticky error flag (the block's only form of `raise`), and the
write-1-to-clear write (10_state.md R17; 40_bus_access.md R73; 60_exceptions.md R112). -/

namespace Sys2Proof.Machine

/-- The four error conditions (60_exceptions.md R112). -/
inductive ErrorFlag where
  | ill
  | ovr
  | baddig
  | badreg
deriving DecidableEq, Repr

/-- The code of an error is its STATUS bit number (60_exceptions.md R112). -/
def errorCode : ErrorFlag → Nat
  | .ill    => 8
  | .ovr    => 9
  | .baddig => 10
  | .badreg => 11

/-- Whether an error flag is set. -/
def flagSet (st : Status) : ErrorFlag → Bool
  | .ill    => st.ill
  | .ovr    => st.ovr
  | .baddig => st.baddig
  | .badreg => st.badreg

/-- `flag F` on STATUS: set one sticky bit and no other (00_scope.md R11; 60_exceptions.md R115, R116). -/
def setFlag (st : Status) : ErrorFlag → Status
  | .ill    => { st with ill := true }
  | .ovr    => { st with ovr := true }
  | .baddig => { st with baddig := true }
  | .badreg => { st with badreg := true }

/-- STATUS[11:0] as a number: each field at its bit, reserved bits 0 (10_state.md R17). -/
def statusNat (st : Status) : Nat :=
  st.busy.toNat + 2 * st.done.toNat + 4 * formatCode st.fmt + 256 * st.ill.toNat + 512 * st.ovr.toNat
    + 1024 * st.baddig.toNat + 2048 * st.badreg.toNat

/-- `zext_64(STATUS[11:0])` (40_bus_access.md R66). -/
def statusWord (st : Status) : Word := BitVec.ofNat 64 (statusNat st)

/-- `StatusWrite(D)`: for i in 8..11, a 1 in D[i] clears STATUS[i]; every other bit of D is ignored
(40_bus_access.md R73). -/
def clearFlags (st : Status) (d : Word) : Status :=
  { st with
    ill    := st.ill && !d.getLsbD (errorCode .ill)
    ovr    := st.ovr && !d.getLsbD (errorCode .ovr)
    baddig := st.baddig && !d.getLsbD (errorCode .baddig)
    badreg := st.badreg && !d.getLsbD (errorCode .badreg) }

/-- STATUS at the acceptance of a DECS/DECD: BUSY <- 1, DONE <- 0, FMT <- f, the sticky flags unchanged
(41_decompose.md R76). -/
def statusAccept (st : Status) (f : Format) : Status := { st with busy := true, done := false, fmt := f }

/-- STATUS at the last ENGINE step: BUSY <- 0, DONE <- 1 (41_decompose.md R83). -/
def statusComplete (st : Status) : Status := { st with busy := false, done := true }

end Sys2Proof.Machine
end

