-- ==== Sys2Proof/Machine/Ops.lean ====
section
/-! DEFINITION. The shared operations: reporting an error (in place of taking an exception), reading a slot, the reset
event, and taking the next event of the order of events. -/

namespace Sys2Proof.Machine

/-- The three outcomes of a step of this machine. -/
abbrev Result := Host.Outcome State Fault Refusal

/-! ### Reporting an error

The block has no exception entry and no return from one (60_exceptions.md R111, R115, R116). What stands in their place is
`flag F`, "the block's only form of `raise`" (00_scope.md R11), and the write that clears flags. -/

/-- `flag F`: the flag bit changes and nothing else (60_exceptions.md R115). -/
def State.raise (s : State) (f : ErrorFlag) : State := { s with status := setFlag s.status f }

/-- `StatusWrite(D)` (40_bus_access.md R73). -/
def State.clearFlags (s : State) (d : Word) : State := { s with status := Machine.clearFlags s.status d }

/-! ### Reading a slot (40_bus_access.md R66) -/

/-- HEXST: HD1 in bits 11:8 and HN in bits 4:0 (10_state.md R28). -/
def hexstWord (hd1 : BitVec 4) (hn : BitVec 5) : Word := (hd1 ++ (0 : BitVec 3) ++ hn).setWidth 64

/-- The data a RD of slot A returns; an unmapped slot reads 0. -/
def readSlot (s : State) (a : Slot) : Word :=
  if a.toNat = 0x00 then 0
  else if a.toNat = 0x01 then statusWord s.status
  else if a.toNat = 0x02 then s.inReg
  else if a.toNat = 0x03 then s.src
  else if a.toNat = 0x04 then s.sign.setWidth 64
  else if a.toNat = 0x05 then s.bexp.setWidth 64
  else if a.toNat = 0x06 then s.uexp
  else if a.toNat = 0x07 then s.mfield.setWidth 64
  else if a.toNat = 0x08 then s.mant
  else if a.toNat = 0x09 then s.weight
  else if a.toNat = 0x0A then s.kcnt.setWidth 64
  else if a.toNat = 0x0B then idConstant
  else if a.toNat = 0x0C then hexstWord s.hd1 s.hn
  else if a.toNat = 0x0D then s.hs
  else if isTraceSlot a then traceEntry s.trace (a.toNat - 0x3F)
  else 0

/-! ### Events (20_memory.md R45) -/

/-- The next event and the state without it. When no event is pending the ENGINE is the only agent left to move
(20_memory.md R46; log entry 2). -/
def nextEvent (s : State) : Event × State :=
  match s.events with
  | []        => (.engine, s)
  | e :: rest => (e, { s with events := rest })

/-- The reset event: every piece of state takes its reset value (70_reset_and_hazards.md R125); what the outside world
will do next is not state of the block and stays. -/
def resetEvent (s : State) : State := { State.reset with events := s.events }

end Sys2Proof.Machine
end

