-- ==== Sys2Proof/Machine/Decompose.lean ====
section
/-! DEFINITION. The decomposition family: DECS and DECD (acceptance) and the ENGINE step (accumulation)
(41_decompose.md). -/

namespace Sys2Proof.Machine

/-- The accepted part of `DecStart(f)` (41_decompose.md R76, R80, R81, R82). The slicer reads the new SRC value, written
as the same function of IN. -/
def acceptDecomposition (f : Format) (s : State) : State :=
  { s with
    status := statusAccept s.status f
    src    := latchSource f s.inReg
    sign   := sliceSign f (latchSource f s.inReg)
    bexp   := sliceBexp f (latchSource f s.inReg)
    uexp   := sliceUexp f (latchSource f s.inReg)
    mfield := sliceMfield f (latchSource f s.inReg)
    acc    := fixedOne
    w      := fixedOne
    mant   := enc64 fixedOne
    weight := enc64 fixedOne
    kcnt   := 0
    trace  := Vector.replicate 52 0 }

/-- `DecStart(f)`: dropped with OVR while BUSY = 1, else accepted (41_decompose.md R76, R79). -/
def decStart (f : Format) (s : State) : State :=
  if s.status.busy then s.raise .ovr else acceptDecomposition f s

/-- DECS (41_decompose.md R77). -/
def execDecs (s : State) : Result := .next (decStart .single s)

/-- DECD (41_decompose.md R78). -/
def execDecd (s : State) : Result := .next (decStart .double s)

/-- The body of `EngineStep`: halve the weight, then test the k-th mantissa bit, most significant first
(41_decompose.md R83). Every right side reads the state before the step. -/
def engineStep (s : State) : State :=
  let n := ntot s.status.fmt
  let k := s.kcnt.toNat + 1
  let w' := s.w >>> 1
  let acc' := if s.mfield.getLsbD (n - k) then s.acc + w' else s.acc
  { s with
    w      := w'
    acc    := acc'
    weight := enc64 w'
    mant   := enc64 acc'
    trace  := traceWrite s.trace k (enc64 acc')
    kcnt   := BitVec.ofNat 6 k
    status := if k = n then statusComplete s.status else s.status }

/-- The ENGINE's turn: its step is enabled exactly when STATUS.BUSY = 1 (41_decompose.md R83); no ENGINE step occurs while
BUSY = 0 (20_memory.md R45), so then nothing changes. -/
def engineEvent (s : State) : State := if s.status.busy then engineStep s else s

end Sys2Proof.Machine
end

