-- ==== Sys2Proof/Machine/Hex.lean ====
section
/-! DEFINITION. The hex-digit loader family: HEXCLR, HEXDIG, HEXEND (42_hex_encode.md). -/

namespace Sys2Proof.Machine

/-- HEXCLR: HN, HD1 and HS <- 0; IN is not changed (42_hex_encode.md R93). -/
def execHexclr (s : State) : Result := .next { s with hn := 0, hd1 := 0, hs := 0 }

/-- One valid digit enters the loader: the first is remembered, HS keeps the last 16, HN saturates at 17
(42_hex_encode.md R94). -/
def pushDigit (d : BitVec 4) (s : State) : State :=
  { s with
    hd1 := if s.hn.toNat = 0 then d else s.hd1
    hs  := s.hs <<< 4 ||| d.setWidth 64
    hn  := BitVec.ofNat 5 (min (s.hn.toNat + 1) 17) }

/-- HEXDIG c: a code that is not a hex digit is refused with BADDIG (42_hex_encode.md R94, R96). -/
def execHexdig (c : BitVec 8) (s : State) : Result :=
  match hexval c with
  | none   => .next (s.raise .baddig)
  | some d => .next (pushDigit d s)

/-- HEXEND: IN <- Pack(HN, HD1, HS); the loader is not changed (42_hex_encode.md R97). -/
def execHexend (s : State) : Result := .next { s with inReg := packHex s.hn s.hd1 s.hs }

end Sys2Proof.Machine
end

