-- ==== Sys2Proof/Machine/Bus.lean ====
section
/-! DEFINITION. The bus family: RD, WR, the dispatch of a command written to CMD, and NOP (40_bus_access.md). -/

namespace Sys2Proof.Machine

/-- NOP: `skip` (40_bus_access.md R71). -/
def execNop (s : State) : Result := .next s

/-- What a RD of slot A does to STATUS: BADREG for an unmapped A, nothing for a mapped one (40_bus_access.md R66, R69). -/
def noteRead (a : Slot) (s : State) : State := if isUnmapped a then s.raise .badreg else s

/-- RD A: the slot's value goes out on bus_rdata (40_bus_access.md R66). -/
def execRd (a : Slot) (s : State) : Result := .next { noteRead a s with rdata := readSlot s a }

/-- `Command(D)`: decode, and run the command within the same write; an ILLEGAL word sets ILL and changes nothing else
(40_bus_access.md R68, R70). -/
def runCommand (d : Word) (s : State) : Result :=
  match decodeCommand d with
  | .error _        => .next (s.raise .ill)
  | .ok .nop        => execNop s
  | .ok .decs       => execDecs s
  | .ok .decd       => execDecd s
  | .ok .hexclr     => execHexclr s
  | .ok (.hexdig c) => execHexdig c s
  | .ok .hexend     => execHexend s

/-- WR A, D (40_bus_access.md R67): CMD runs a command, STATUS clears flags (R73), IN takes D (R72), and every other
slot, read-only or unmapped, sets BADREG and changes nothing else (R69). -/
def execWr (a : Slot) (d : Word) (s : State) : Result :=
  if a.toNat = 0x00 then runCommand d s
  else if a.toNat = 0x01 then .next (s.clearFlags d)
  else if a.toNat = 0x02 then .next { s with inReg := d }
  else .next (s.raise .badreg)

end Sys2Proof.Machine
end

