-- ==== Sys2Proof/Machine/Dispatch.lean ====
section
/-! DEFINITION. One arm per instruction. -/

namespace Sys2Proof.Machine

def exec (i : Instr) (s : State) : Host.Outcome State Fault Refusal :=
  match i with
  | .nop => Sys2Proof.Machine.execNop s
  | .decs => Sys2Proof.Machine.execDecs s
  | .decd => Sys2Proof.Machine.execDecd s
  | .hexclr => Sys2Proof.Machine.execHexclr s
  | .hexdig c => Sys2Proof.Machine.execHexdig c s
  | .hexend => Sys2Proof.Machine.execHexend s
  | .rd a => Sys2Proof.Machine.execRd a s
  | .wr a d => Sys2Proof.Machine.execWr a d s

end Sys2Proof.Machine
end

