-- ==== Sys2Proof/Machine/Step.lean ====
section
/-! DEFINITION. One step: the next event of the total order of 20_memory.md R45. -/

namespace Sys2Proof.Machine

/-- One event. A reset has meaning in every state; a HOST transaction or an ENGINE step before the first reset has none and is
refused (70_reset_and_hazards.md R125, R126). -/
def step (s : State) : Host.Outcome State Fault Refusal :=
  match nextEvent s with
  | (.reset, s')  => .next (resetEvent s')
  | (.host t, s') => if s.resetSeen then exec (decodeBus t) s' else .refused .beforeFirstReset
  | (.engine, s') => if s.resetSeen then .next (engineEvent s') else .refused .beforeFirstReset

/-- The state whose very next event is the HOST transaction that stands for a table row's bits (log entry 7). A step
fetches only after a first reset, so the state is one after it. -/
def State.withFetchWord (s : State) (nbits w : Nat) : State :=
  { s with resetSeen := true, events := .host (tableTransaction nbits w) :: s.events }

end Sys2Proof.Machine
end

