-- ==== Sys2Proof/Machine/Assembler.lean ====
section
/-! DEFINITION. The host notation of 30_encoding.md R63 and the expansions of its pseudo-instructions (R64). None has an
effect of its own: each is the list of transactions it issues. -/

namespace Sys2Proof.Machine

/-- `RD slot`. -/
def asmRd (a : Slot) : Transaction := { we := false, a := a, d := 0 }

/-- `WR slot, imm64`. -/
def asmWr (a : Slot) (d : Word) : Transaction := { we := true, a := a, d := d }

/-- A command mnemonic on its own line: `WR CMD, word`. -/
def asmCommand (c : Command) : Transaction := asmWr slotCMD c.data

/-- `HEXSTR "d_1..d_n"`: HEXCLR, one HEXDIG per character in string order, HEXEND. -/
def asmHexstr (chars : List (BitVec 8)) : List Transaction :=
  asmCommand .hexclr :: (chars.map (fun c => asmCommand (.hexdig c)) ++ [asmCommand .hexend])

/-- `LOADS imm32`: `WR IN, zext_64(imm32)`. -/
def asmLoads (imm : BitVec 32) : List Transaction := [asmWr slotIN (imm.setWidth 64)]

/-- `LOADD imm64`: `WR IN, imm64`. -/
def asmLoadd (imm : Word) : List Transaction := [asmWr slotIN imm]

/-- `WAITIDLE`: one `RD STATUS` per iteration. How often the host's loop goes round is the host's control flow, which
reads the bits the block returns; here it is the argument (log entry 13). -/
def asmWaitidle (iterations : Nat) : List Transaction := List.replicate iterations (asmRd slotSTATUS)

/-- `CLRERR`: `WR STATUS, 0xF00`. -/
def asmClrerr : List Transaction := [asmWr slotSTATUS 0x0000000000000F00]

/-- `DECSW`: DECS then WAITIDLE. -/
def asmDecsw (iterations : Nat) : List Transaction := asmCommand .decs :: asmWaitidle iterations

/-- `DECDW`: DECD then WAITIDLE. -/
def asmDecdw (iterations : Nat) : List Transaction := asmCommand .decd :: asmWaitidle iterations

end Sys2Proof.Machine
end

