-- ==== Sys2Proof/Machine/Reference.lean ====
section
/-! DEFINITION. The spec's reference functions, which the machine does not use: what the hex loader must equal (the
source's backward scan), the partial fraction, and the real value of a binary32 or binary64 pattern. Claims compare the
machine with them. -/

namespace Sys2Proof.Machine

/-! ### Hex strings (00_scope.md R10; 42_hex_encode.md R92) -/

/-- `hexnum(d_1..d_n)`: the integer whose base-16 digits, most significant first, are d_1..d_n; 0 for none. -/
def hexnum (ds : List (BitVec 4)) : Nat := ds.foldl (fun n d => 16 * n + d.toNat) 0

/-- The valid digits of a character string: a character that is not a hex digit code is not part of the string
(42_hex_encode.md R95, R96). -/
def digitsOf (chars : List (BitVec 8)) : List (BitVec 4) := chars.filterMap hexval

/-- The loop of `RefPack`, on the digits in reverse (the last digit first) with a bound on the bytes: a pair fills a
byte, a single leftover digit only its high nibble. The first byte is the least significant. -/
def refBytes : Nat → List (BitVec 4) → List Nat
  | 0, _ => []
  | _ + 1, [] => []
  | _ + 1, [d] => [16 * d.toNat]
  | n + 1, d :: e :: rest => (16 * e.toNat + d.toNat) :: refBytes n rest

/-- `sum_j buf[j] << (8*j)`. -/
def bytesValue : List Nat → Nat
  | [] => 0
  | b :: bs => b + 256 * bytesValue bs

/-- `RefPack(d_1..d_n)` (42_hex_encode.md R92): at most 8 bytes, filled from the end of the string. -/
def refPack (ds : List (BitVec 4)) : Word := BitVec.ofNat 64 (bytesValue (refBytes 8 ds.reverse))

/-! ### Values -/

/-- `partfrac(M, n, k) = (M >> (n - k)) / 2^k` (41_decompose.md R85). -/
def partfrac (m n k : Nat) : ℚ := ((m / 2 ^ (n - k) : Nat) : ℚ) / 2 ^ k

/-- The real value a fixed-point register (ACC or w) stands for (10_state.md R31). -/
def fixedValue (n : BitVec 53) : ℚ := (n.toNat : ℚ) / 2 ^ 52

/-- The biased exponent field of a pattern, as a number (00_scope.md R5). -/
def patternExponent (f : Format) (p : Word) : Nat := p.toNat / 2 ^ ntot f % 2 ^ expWidth f

/-- A normal pattern: 0 < BEXP < 2^E - 1 (43_report.md R106). -/
def isNormalPattern (f : Format) (p : Word) : Prop :=
  0 < patternExponent f p ∧ patternExponent f p < 2 ^ expWidth f - 1

/-- The IEEE-754 value of a normal pattern, (-1)^s × 2^(e - bias) × (1 + f/2^N) (43_report.md R106). -/
def patternValue (f : Format) (p : Word) : ℚ :=
  (-1) ^ (p.toNat / 2 ^ signPos f % 2) * 2 ^ ((patternExponent f p : ℤ) - bias f)
    * (1 + ((p.toNat % 2 ^ ntot f : Nat) : ℚ) / 2 ^ ntot f)

/-- `dec64(p)`: the real value of a normal binary64 pattern (00_scope.md R9). -/
def dec64 (p : Word) : ℚ := patternValue .double p

end Sys2Proof.Machine
end

