-- ==== Sys2Proof/Safety.lean ====
section
/-! DEFINITION. The terms claims use: runs of many steps, what a list of events holds, the invariant of 10_state.md R37 with
the partial sums of 41_decompose.md R85 and the loader facts of 42_hex_encode.md R95, and states that agree but for a part. -/

namespace Sys2Proof.Machine

/-! ### Runs -/

/-- n steps, stopping at the first refusal. -/
def steps : Nat → State → Result
  | 0, s => .next s
  | n + 1, s =>
    match step s with
    | .next t    => steps n t
    | .fault r   => .fault r
    | .refused r => .refused r

/-- What some run from reset reaches, whatever events the outside world sends. -/
inductive Reachable : State → Prop where
  | start (events : List Event) : Reachable { State.reset with events := events }
  | next (s t : State) : Reachable s → step s = .next t → Reachable t

/-- The HOST transactions among some events, in order (20_memory.md R45). -/
def hostTransactions : List Event → List Transaction
  | [] => []
  | .host t :: rest => t :: hostTransactions rest
  | .engine :: rest => hostTransactions rest
  | .reset :: rest => hostTransactions rest

/-- How many turns the ENGINE gets among some events. -/
def engineTurns (events : List Event) : Nat := events.count .engine

/-- No reset among some events. -/
def noReset (events : List Event) : Prop := Event.reset ∉ events

/-- No DECS and no DECD among some events. -/
def noDecomposition (events : List Event) : Prop :=
  Event.host (asmCommand .decs) ∉ events ∧ Event.host (asmCommand .decd) ∉ events

/-- The events after the first n ENGINE turns; none if there are fewer turns. -/
def afterTurns : Nat → List Event → List Event
  | 0, events => events
  | _ + 1, [] => []
  | n + 1, .engine :: rest => afterTurns n rest
  | n + 1, .host _ :: rest => afterTurns (n + 1) rest
  | n + 1, .reset :: rest => afterTurns (n + 1) rest

/-- A HEXCLR, or a HEXDIG of any character: the transactions that write the hex loader. -/
def isLoaderTransaction (t : Transaction) : Bool :=
  t == asmCommand .hexclr || t == asmCommand (.hexdig (t.d.extractLsb' 8 8))

/-- The HEXCLRs and HEXDIGs among some events, in order. -/
def loaderTransactions (events : List Event) : List Transaction := (hostTransactions events).filter isLoaderTransaction

/-- The command of a format: DECS or DECD. -/
def decCommand : Format → Command
  | .single => .decs
  | .double => .decd

/-- The instruction of a format: DECS or DECD. -/
def decInstr : Format → Instr
  | .single => .decs
  | .double => .decd

/-! ### The invariant -/

/-- Every register of 10_state.md R34 that a decomposition writes still has its reset value. -/
def ResultsAtReset (s : State) : Prop :=
  s.status.fmt = .single ∧ s.src = 0 ∧ s.sign = 0 ∧ s.bexp = 0 ∧ s.uexp = 0 ∧ s.mfield = 0 ∧ s.mant = 0
    ∧ s.weight = 0 ∧ s.kcnt = 0 ∧ s.trace = Vector.replicate 52 0

/-- SIGN, BEXP, UEXP and MFIELD are the fields of SRC in the current format, and SRC[63:32] is 0 after DECS
(10_state.md R19; 41_decompose.md R80). -/
def FieldsOfSource (s : State) : Prop :=
  (s.status.fmt = .single → s.src.toNat < 2 ^ 32)
    ∧ s.sign = sliceSign s.status.fmt s.src
    ∧ s.bexp = sliceBexp s.status.fmt s.src
    ∧ s.uexp = sliceUexp s.status.fmt s.src
    ∧ s.mfield = sliceMfield s.status.fmt s.src

/-- The cumulative pattern after k of n steps on the mantissa field m:
`0x3FF0_0000_0000_0000 | ((m >> (n - k)) << (52 - k))` (41_decompose.md R85). -/
def cumulativePattern (m : BitVec 52) (n k : Nat) : Word :=
  0x3FF0000000000000 ||| BitVec.ofNat 64 (m.toNat / 2 ^ (n - k) * 2 ^ (52 - k))

/-- The pattern of the weight after k steps: `(1023 - k) << 52` (41_decompose.md R85). -/
def weightPattern (k : Nat) : Word := BitVec.ofNat 64 ((1023 - k) * 2 ^ 52)

/-- The partial-sum invariant of 41_decompose.md R85, with n = NTOT and k = KCNT. -/
def PartialSums (s : State) : Prop :=
  let n := ntot s.status.fmt
  let k := s.kcnt.toNat
  s.mant = cumulativePattern s.mfield n k
    ∧ s.weight = weightPattern k
    ∧ fixedValue s.acc = 1 + partfrac s.mfield.toNat n k
    ∧ fixedValue s.w = 1 / 2 ^ k
    ∧ ∀ j, 1 ≤ j → j ≤ k → traceEntry s.trace j = cumulativePattern s.mfield n j

/-- What HN, HD1 and HS can be together (42_hex_encode.md R95): no digits, or 1 to 16 digits whose first is HD1, or more. -/
def LoaderConsistent (s : State) : Prop :=
  s.hn.toNat ≤ 17
    ∧ (s.hn.toNat = 0 → s.hd1 = 0 ∧ s.hs = 0)
    ∧ (1 ≤ s.hn.toNat → s.hn.toNat ≤ 16 →
        s.hs.toNat < 16 ^ s.hn.toNat ∧ s.hs.toNat / 16 ^ (s.hn.toNat - 1) = s.hd1.toNat)

/-- The invariant of every state reached from reset: 10_state.md R37 (a) to (e), the fields of SRC, and the loader. -/
structure BlockInv (s : State) : Prop where
  /-- R37 (a). -/
  busy_counts : s.status.busy = true → s.kcnt.toNat < ntot s.status.fmt ∧ s.status.done = false
  /-- R37 (b). -/
  done_counts : s.status.done = true → s.status.busy = false ∧ s.kcnt.toNat = ntot s.status.fmt
  /-- R37 (c). -/
  idle_reset : s.status.busy = false → s.status.done = false → ResultsAtReset s
  /-- R80 of the latched pattern. -/
  fields : s.status.busy = true ∨ s.status.done = true → FieldsOfSource s
  /-- R37 (d) and R85. -/
  sums : s.status.busy = true ∨ s.status.done = true → PartialSums s
  /-- R37 (e). -/
  trace_clear : ∀ k, s.kcnt.toNat < k → k ≤ 52 → traceEntry s.trace k = 0
  /-- R95. -/
  loader : LoaderConsistent s

/-! ### States that agree but for a part -/

/-- Everything a decomposition writes but STATUS is the same (70_reset_and_hazards.md R133). -/
def SameResults (s t : State) : Prop :=
  t.src = s.src ∧ t.sign = s.sign ∧ t.bexp = s.bexp ∧ t.uexp = s.uexp ∧ t.mfield = s.mfield ∧ t.mant = s.mant
    ∧ t.weight = s.weight ∧ t.kcnt = s.kcnt ∧ t.trace = s.trace ∧ t.acc = s.acc ∧ t.w = s.w

/-- The hex loader is the same. -/
def SameLoader (s t : State) : Prop := t.hn = s.hn ∧ t.hd1 = s.hd1 ∧ t.hs = s.hs

/-- The model's own fields and bus_rdata are the same. -/
def SameSurroundings (s t : State) : Prop := t.rdata = s.rdata ∧ t.resetSeen = s.resetSeen ∧ t.events = s.events

/-- Two states that differ at most in the four sticky flags. -/
def SameButFlags (s t : State) : Prop :=
  ∃ f : Status, f.busy = s.status.busy ∧ f.done = s.status.done ∧ f.fmt = s.status.fmt ∧ t = { s with status := f }

/-- Two states that differ at most in ACC and w. -/
def SameButAccumulator (s t : State) : Prop := ∃ acc w : BitVec 53, t = { s with acc := acc, w := w }

/-- A flag stays set until the host writes 1 to its bit of STATUS or reset (00_scope.md R14; 60_exceptions.md R116). -/
def StickyFlag (f : ErrorFlag) : Prop :=
  ∀ s t : State, step s = .next t → flagSet s.status f = true → flagSet t.status f = false →
    (∃ rest, s.events = .reset :: rest)
      ∨ ∃ d rest, s.events = .host (asmWr slotSTATUS d) :: rest ∧ d.getLsbD (errorCode f) = true

end Sys2Proof.Machine
end

