-- ==== Sys2Proof/Certificates/Slice0/Obligations.lean ====
section
/-! DEFINITION. The statements for the provers. Each docstring names the rule of spec/ it comes from. Three fields of State are
the model's own record and no register of the block: `rdata` (what the latest RD returned), `resetSeen` and `events` (log
entries 4, 6 and 1). Where a statement says that nothing else changes it says so of these too; that clause is the model's. -/

open Sys2Proof Sys2Proof.Machine

/-! ### Encoding (30_encoding.md) -/

/-- Words written out from R54, R57 and R58 decode to the instructions they stand for. -/
def Obligations.WordsOfTheEncodingTableDecode : Prop :=
  decodeTableWord 32 0x00000000 = some .nop
    ∧ decodeTableWord 32 0x00000001 = some .decs
    ∧ decodeTableWord 32 0x00000002 = some .decd
    ∧ decodeTableWord 32 0x00000010 = some .hexclr
    ∧ decodeTableWord 32 0x00003311 = some (.hexdig 0x33)
    ∧ decodeTableWord 32 0x00006611 = some (.hexdig 0x66)
    ∧ decodeTableWord 32 0x00004611 = some (.hexdig 0x46)
    ∧ decodeTableWord 32 0x00000012 = some .hexend
    ∧ decodeTableWord 8 0x01 = some (.rd slotSTATUS)
    ∧ decodeTableWord 8 0x73 = some (.rd (slotTRACE 52))
    ∧ decodeTableWord 8 0x82 = some (.wr slotIN 0)

/-- R58: each command has exactly one legal word among the 2^64 values of D, it is the table's, and it is the one the row's
match and mask select; D[63:32] is 0 in each case. -/
def Obligations.EachCommandHasExactlyItsWord : Prop :=
  ∀ (d : Word) (c : BitVec 8),
    (decodeCommand d = .ok .nop ↔ d.toNat = 0x00)
      ∧ (decodeCommand d = .ok .decs ↔ d.toNat = 0x01)
      ∧ (decodeCommand d = .ok .decd ↔ d.toNat = 0x02)
      ∧ (decodeCommand d = .ok .hexclr ↔ d.toNat = 0x10)
      ∧ (decodeCommand d = .ok (.hexdig c) ↔ d.toNat = 256 * c.toNat + 0x11)
      ∧ (decodeCommand d = .ok .hexend ↔ d.toNat = 0x12)
      ∧ ∀ r ∈ commandTable,
          (∃ k, decodeCommand d = .ok k ∧ k.mnemonic = r.mnemonic)
            ↔ (d.toNat < 2 ^ 32 ∧ r.matchesWord (d.setWidth 32) = true)

/-- Decode and encode agree for every instruction, and the encoding presented on the bus runs the instruction (R63, R68). -/
def Obligations.DecodeEncodeAgreeAndRun : Prop :=
  ∀ i : Instr, i.wellFormed = true →
    decode (encode i) = .ok i
      ∧ ∀ s : State, exec (decodeBus (encode i).transaction) s = exec i s

/-- Whatever decodes is the encoding of what it decodes to, but for the ignored data of a RD (R52): no two objects share
a meaning they should not. -/
def Obligations.DecodedObjectsReencode : Prop :=
  ∀ (e : Encoded) (i : Instr), decode e = .ok i →
    encode i = e ∨ ∃ (a : Slot) (d : Word), i = .rd a ∧ e = .bus { we := false, a := a, d := d }

/-- R58: a 32-bit command word decodes to a row's command exactly when it has the row's match under the row's mask, and
no word belongs to two rows. -/
def Obligations.CommandTableMatchesAndMasks : Prop :=
  ∀ w : BitVec 32,
    (∀ r ∈ commandTable,
      r.matchesWord w = true ↔ ∃ c, decodeCommand (w.setWidth 64) = .ok c ∧ c.mnemonic = r.mnemonic)
      ∧ commandTable.countP (fun r => r.matchesWord w) ≤ 1

/-- R60: the illegal encodings are exactly the four clauses, and an illegal command only sets ILL. -/
def Obligations.IllegalEncodingsOnlySetIll : Prop :=
  ∀ (d : Word) (s : State),
    ((∃ e, decodeCommand d = .error e) ↔
      (d.toNat / 2 ^ 32 ≠ 0 ∨ d.toNat / 2 ^ 16 % 2 ^ 16 ≠ 0
        ∨ d.toNat % 256 ∉ [0x00, 0x01, 0x02, 0x10, 0x11, 0x12]
        ∨ (d.toNat / 256 % 256 ≠ 0 ∧ d.toNat % 256 ≠ 0x11)))
      ∧ ((∃ e, decodeCommand d = .error e) →
        exec (.wr slotCMD d) s = .next { s with status := { s.status with ill := true } })

/-- The legality check of WellFormed agrees with the decoder (R59, R60). -/
def Obligations.CommandLegalityMatchesDecoder : Prop :=
  ∀ d : Word, CommandData.wellFormed d = true ↔ ∃ c, decodeCommand d = .ok c

/-- R53: WE alone chooses RD or WR, and every transaction is valid. -/
def Obligations.BusDecoderIsTotal : Prop :=
  ∀ (a : Slot) (d : Word),
    decode (.bus { we := false, a := a, d := d }) = .ok (.rd a)
      ∧ decode (.bus { we := true, a := a, d := d }) = .ok (.wr a d)

/-! ### Bus reads (40_bus_access.md R66) -/

/-- R66: what a RD of each slot returns; a mapped slot changes no state, an unmapped slot returns 0 and sets BADREG. -/
def Obligations.ReadReturnsTheSlot : Prop :=
  ∀ s : State,
    exec (.rd 0x00) s = .next { s with rdata := 0 }
      ∧ exec (.rd 0x01) s = .next { s with rdata := statusWord s.status }
      ∧ exec (.rd 0x02) s = .next { s with rdata := s.inReg }
      ∧ exec (.rd 0x03) s = .next { s with rdata := s.src }
      ∧ exec (.rd 0x04) s = .next { s with rdata := BitVec.ofNat 64 s.sign.toNat }
      ∧ exec (.rd 0x05) s = .next { s with rdata := BitVec.ofNat 64 s.bexp.toNat }
      ∧ exec (.rd 0x06) s = .next { s with rdata := s.uexp }
      ∧ exec (.rd 0x07) s = .next { s with rdata := BitVec.ofNat 64 s.mfield.toNat }
      ∧ exec (.rd 0x08) s = .next { s with rdata := s.mant }
      ∧ exec (.rd 0x09) s = .next { s with rdata := s.weight }
      ∧ exec (.rd 0x0A) s = .next { s with rdata := BitVec.ofNat 64 s.kcnt.toNat }
      ∧ exec (.rd 0x0B) s = .next { s with rdata := 0x0000000042464301 }
      ∧ exec (.rd 0x0C) s = .next { s with rdata := BitVec.ofNat 64 (256 * s.hd1.toNat + s.hn.toNat) }
      ∧ exec (.rd 0x0D) s = .next { s with rdata := s.hs }
      ∧ (∀ k : Fin 52, exec (.rd (BitVec.ofNat 7 (0x40 + k))) s = .next { s with rdata := s.trace.get k })
      ∧ (∀ a : Slot, (0x0E ≤ a.toNat ∧ a.toNat ≤ 0x3F) ∨ 0x74 ≤ a.toNat →
          exec (.rd a) s = .next { s with rdata := 0, status := { s.status with badreg := true } })

/-- R17: each field of STATUS is at its bit, and every reserved bit reads 0. -/
def Obligations.StatusReadsFieldsAtTheirBits : Prop :=
  ∀ (st : Status) (i : Nat),
    (statusWord st).getLsbD i =
      (if i = 0 then st.busy
      else if i = 1 then st.done
      else if i = 2 then decide (st.fmt = .double)
      else if i = 8 then st.ill
      else if i = 9 then st.ovr
      else if i = 10 then st.baddig
      else if i = 11 then st.badreg
      else false)

/-- R112: the code of an error is its STATUS bit number; R115, R116: raising it changes that bit alone. -/
def Obligations.RaisingAnErrorSetsOnlyItsBit : Prop :=
  ∀ (s : State) (f : ErrorFlag),
    (∀ i : Nat, (statusWord (s.raise f).status).getLsbD i = (decide (i = errorCode f) || (statusWord s.status).getLsbD i))
      ∧ s.raise f = { s with status := (s.raise f).status }

/-! ### Bus writes (40_bus_access.md R67 to R73) -/

/-- R67, with R68, R72 and R73 for what it calls: what a WR of each slot does; nothing else changes. -/
def Obligations.WriteDispatchesOnTheSlot : Prop :=
  ∀ (d : Word) (s : State),
    (∀ c, decodeCommand d = .ok c → exec (.wr 0x00 d) s = exec c.toInstr s)
      ∧ (∀ e, decodeCommand d = .error e →
          exec (.wr 0x00 d) s = .next { s with status := { s.status with ill := true } })
      ∧ exec (.wr 0x01 d) s =
        .next { s with status :=
          { s.status with
            ill    := s.status.ill && !d.getLsbD 8
            ovr    := s.status.ovr && !d.getLsbD 9
            baddig := s.status.baddig && !d.getLsbD 10
            badreg := s.status.badreg && !d.getLsbD 11 } }
      ∧ exec (.wr 0x02 d) s = .next { s with inReg := d }
      ∧ ∀ a : Slot, 0x03 ≤ a.toNat →
          exec (.wr a d) s = .next { s with status := { s.status with badreg := true } }

/-- R73: a STATUS write clears exactly the selected flags of the word STATUS reads as. -/
def Obligations.StatusWriteClearsSelectedBits : Prop :=
  ∀ (d : Word) (s : State), ∃ t, exec (.wr slotSTATUS d) s = .next t
    ∧ (∀ i : Nat, (statusWord t.status).getLsbD i =
        ((statusWord s.status).getLsbD i && !(decide (8 ≤ i ∧ i ≤ 11) && d.getLsbD i)))
    ∧ t = { s with status := t.status }

/-- R69: the three BADREG cases, in which nothing else changes but the returned 0, and what clears BADREG. -/
def Obligations.BadregCasesChangeNothingElse : Prop :=
  (∀ (a : Slot) (d : Word) (s : State),
    ((0x0E ≤ a.toNat ∧ a.toNat ≤ 0x3F) ∨ 0x74 ≤ a.toNat →
        exec (.rd a) s = .next { s with rdata := 0, status := { s.status with badreg := true } })
      ∧ ((0x0E ≤ a.toNat ∧ a.toNat ≤ 0x3F) ∨ 0x74 ≤ a.toNat →
        exec (.wr a d) s = .next { s with status := { s.status with badreg := true } })
      ∧ ((0x03 ≤ a.toNat ∧ a.toNat ≤ 0x0D) ∨ (0x40 ≤ a.toNat ∧ a.toNat ≤ 0x73) →
        exec (.wr a d) s = .next { s with status := { s.status with badreg := true } })
      ∧ exec (.rd slotCMD) s = .next { s with rdata := 0 })
    ∧ StickyFlag .badreg

/-- R70: an illegal command sets ILL and changes nothing else, in every state, and what clears ILL. -/
def Obligations.IllegalCommandSetsIllAndSticks : Prop :=
  (∀ (d : Word) (s : State), (∃ e, decodeCommand d = .error e) →
    exec (.wr slotCMD d) s = .next { s with status := { s.status with ill := true } })
    ∧ StickyFlag .ill

/-- R71: NOP changes nothing in any state. -/
def Obligations.NopChangesNothing : Prop := ∀ s : State, exec .nop s = .next s

/-- R64: the transactions each pseudo-instruction issues (WAITIDLE for a number of iterations, log entry 13); CLRERR clears the
four error flags and nothing else, and LOADS and LOADD put their operand in IN. What HEXSTR does is `HexstrEqualsTheBackwardScan`,
and what WAITIDLE, DECSW and DECDW do is `PollingPseudoInstructionsRun`. -/
def Obligations.PseudoInstructionsExpand : Prop :=
  ∀ (s : State) (imm32 : BitVec 32) (imm64 : Word) (n : Nat) (chars : List (BitVec 8)),
    asmClrerr = [{ we := true, a := 0x01, d := 0x0000000000000F00 }]
      ∧ asmLoads imm32 = [{ we := true, a := 0x02, d := BitVec.ofNat 64 imm32.toNat }]
      ∧ asmLoadd imm64 = [{ we := true, a := 0x02, d := imm64 }]
      ∧ asmWaitidle n = List.replicate n { we := false, a := 0x01, d := 0 }
      ∧ asmDecsw n = { we := true, a := 0x00, d := 0x01 } :: asmWaitidle n
      ∧ asmDecdw n = { we := true, a := 0x00, d := 0x02 } :: asmWaitidle n
      ∧ asmHexstr chars = { we := true, a := 0x00, d := 0x10 }
          :: (chars.map (fun c => { we := true, a := 0x00, d := BitVec.ofNat 64 (256 * c.toNat + 0x11) })
            ++ [{ we := true, a := 0x00, d := 0x12 }])
      ∧ asmClrerr.map (fun t => exec (decodeBus t) s) =
        [.next { s with status := { s.status with ill := false, ovr := false, baddig := false, badreg := false } }]
      ∧ (asmLoads imm32).map (fun t => exec (decodeBus t) s) =
        [.next { s with inReg := BitVec.ofNat 64 imm32.toNat }]
      ∧ (asmLoadd imm64).map (fun t => exec (decodeBus t) s) = [.next { s with inReg := imm64 }]

/-! ### Acceptance of DECS and DECD (41_decompose.md R76 to R82) -/

/-- R80, R82: on acceptance the pattern is latched and the slicer's fields are final at once, while BUSY is still 1. -/
def Obligations.AcceptanceSlicesTheLatchedPattern : Prop :=
  ∀ s : State, s.status.busy = false →
    (∃ t, exec .decs s = .next t ∧ t.status.busy = true ∧ t.status.fmt = .single
        ∧ t.src.toNat = s.inReg.toNat % 2 ^ 32
        ∧ t.sign.toNat = t.src.toNat / 2 ^ 31 % 2
        ∧ t.bexp.toNat = t.src.toNat / 2 ^ 23 % 2 ^ 8
        ∧ t.uexp.toInt = (t.bexp.toNat : Int) - 127
        ∧ t.mfield.toNat = t.src.toNat % 2 ^ 23)
      ∧ ∃ t, exec .decd s = .next t ∧ t.status.busy = true ∧ t.status.fmt = .double
        ∧ t.src = s.inReg
        ∧ t.sign.toNat = t.src.toNat / 2 ^ 63
        ∧ t.bexp.toNat = t.src.toNat / 2 ^ 52 % 2 ^ 11
        ∧ t.uexp.toInt = (t.bexp.toNat : Int) - 1023
        ∧ t.mfield.toNat = t.src.toNat % 2 ^ 52

/-- R81: on acceptance ACC and w are 1, MANT and WEIGHT are enc64(1), KCNT and every TRACE entry are 0, BUSY is 1 and DONE is 0. -/
def Obligations.AcceptanceInitialisesTheAccumulator : Prop :=
  ∀ (f : Format) (s : State), s.status.busy = false →
    ∃ t, exec (decInstr f) s = .next t
      ∧ fixedValue t.acc = 1 ∧ fixedValue t.w = 1
      ∧ t.mant = 0x3FF0000000000000 ∧ t.weight = 0x3FF0000000000000
      ∧ t.kcnt = 0 ∧ t.kcnt.toNat < ntot f ∧ (∀ k, 1 ≤ k → k ≤ 52 → traceEntry t.trace k = 0)
      ∧ t.status = { s.status with busy := true, done := false, fmt := f }

/-- The frame of an accepted DECS or DECD (R76, R133): IN, the hex loader, the sticky flags, bus_rdata and the events to come
are unchanged. -/
def Obligations.AcceptanceFrame : Prop :=
  ∀ (f : Format) (s : State), s.status.busy = false →
    ∃ t, exec (decInstr f) s = .next t
      ∧ t.inReg = s.inReg ∧ SameLoader s t ∧ SameSurroundings s t
      ∧ ∀ e : ErrorFlag, flagSet t.status e = flagSet s.status e

/-- R79: while BUSY = 1 a DECS or DECD is dropped, sets OVR and changes nothing else; with BUSY = 0 it is accepted, whatever
DONE holds. -/
def Obligations.BusyDecompositionIsDropped : Prop :=
  ∀ (f : Format) (s : State),
    (s.status.busy = true → exec (decInstr f) s = .next { s with status := { s.status with ovr := true } })
      ∧ (s.status.busy = false → ∃ t, exec (decInstr f) s = .next t ∧ t.status.busy = true ∧ t.status.done = false
          ∧ t.status.fmt = f ∧ t.status.ovr = s.status.ovr)

/-- R90 (b), R110: what a decomposition leaves depends on its operand alone, neither on the state it starts in nor on what the
host does meanwhile: two accepted decompositions of one operand have the same results once the ENGINE had equally many of the
steps they owe. A DECS/DECD after the last of them could start another decomposition and is excluded. -/
def Obligations.DecompositionDependsOnTheOperandOnly : Prop :=
  ∀ (f : Format) (s s' t t' u u' : State) (evs evs' : List Event),
    s.status.busy = false → s'.status.busy = false → s.resetSeen = true → s'.resetSeen = true →
    (f = .single → s.inReg.toNat % 2 ^ 32 = s'.inReg.toNat % 2 ^ 32) →
    (f = .double → s.inReg = s'.inReg) →
    exec (decInstr f) s = .next t → exec (decInstr f) s' = .next t' →
    noReset evs → noReset evs' → noDecomposition (afterTurns (ntot f) evs) → noDecomposition (afterTurns (ntot f) evs') →
    min (engineTurns evs) (ntot f) = min (engineTurns evs') (ntot f) →
    steps evs.length { t with events := evs } = .next u → steps evs'.length { t' with events := evs' } = .next u' →
    SameResults u u' ∧ u'.status.busy = u.status.busy ∧ u'.status.done = u.status.done ∧ u'.status.fmt = u.status.fmt

/-! ### The ENGINE step (41_decompose.md R83 to R91) -/

/-- R9: the two kinds of value `enc64` encodes, 1 + F/2^52 and 2^-k. -/
def Obligations.EncodesAccumulatorValuesAsBinary64 : Prop :=
  (∀ f : Nat, f < 2 ^ 52 → enc64 (BitVec.ofNat 53 (2 ^ 52 + f)) = 0x3FF0000000000000 ||| BitVec.ofNat 64 f)
    ∧ (∀ k : Nat, k ≤ 52 → enc64 (BitVec.ofNat 53 (2 ^ (52 - k))) = BitVec.ofNat 64 (1023 - k) <<< 52)

/-- Every fixed-point accumulator value is exactly the value of its binary64 pattern: no rounding (R12, R86). -/
def Obligations.AccumulatorPatternsAreExact : Prop :=
  ∀ n : BitVec 53, 0 < n.toNat → dec64 (enc64 n) = fixedValue n

/-- R83: the ENGINE step, enabled exactly while BUSY = 1: halve the weight, test the k-th bit, most significant first, add the
halved weight if it is set. The sum is exact. With BUSY = 0 the ENGINE's turn changes nothing. -/
def Obligations.EngineStepHalvesThenTests : Prop :=
  ∀ (s : State) (rest : List Event), s.resetSeen = true → s.events = .engine :: rest → BlockInv s →
    ∃ t, step s = .next t
      ∧ t.src = s.src ∧ t.sign = s.sign ∧ t.bexp = s.bexp ∧ t.uexp = s.uexp ∧ t.mfield = s.mfield
      ∧ t.inReg = s.inReg ∧ SameLoader s t
      ∧ (s.status.busy = false → t.status = s.status ∧ SameResults s t)
      ∧ (s.status.busy = true →
        t.kcnt.toNat = s.kcnt.toNat + 1
          ∧ fixedValue t.w = fixedValue s.w / 2
          ∧ fixedValue t.acc =
              (if s.mfield.getLsbD (ntot s.status.fmt - t.kcnt.toNat) then fixedValue s.acc + fixedValue s.w / 2
              else fixedValue s.acc)
          ∧ t.weight = enc64 t.w ∧ t.mant = enc64 t.acc
          ∧ traceEntry t.trace t.kcnt.toNat = enc64 t.acc
          ∧ (∀ j, j ≠ t.kcnt.toNat → traceEntry t.trace j = traceEntry s.trace j)
          ∧ t.status = (if t.kcnt.toNat = ntot s.status.fmt then { s.status with busy := false, done := true } else s.status))

/-- The ENGINE's turn and the model's own fields (log entries 1, 2, 4, 6): the turn uses up its event and nothing else of
them; and when no event is pending the ENGINE moves, which is the model's choice. -/
def Obligations.EngineTurnKeepsTheModelFields : Prop :=
  ∀ (s t : State) (rest : List Event),
    (s.events = .engine :: rest → step s = .next t → t.rdata = s.rdata ∧ t.resetSeen = s.resetSeen ∧ t.events = rest)
      ∧ (s.events = [] → step s = step { s with events := [.engine] })

/-- R84: the bit-level form of the ENGINE step equals the arithmetic one in every state of the invariant. -/
def Obligations.EngineStepHasTheBitLevelForm : Prop :=
  ∀ (s t : State) (rest : List Event), s.resetSeen = true → s.events = .engine :: rest → s.status.busy = true → BlockInv s →
    step s = .next t →
    let k := s.kcnt.toNat + 1
    let bit : Word := if s.mfield.getLsbD (ntot s.status.fmt - k) then 1 else 0
    t.weight = BitVec.ofNat 64 (1023 - k) <<< 52
      ∧ t.mant = s.mant ||| (bit <<< (52 - k))
      ∧ traceEntry t.trace k = s.mant ||| (bit <<< (52 - k))

/-- R85, R82, R131: after an accepted DECS/DECD and any events without a reset, with k the ENGINE's turns among them up to NTOT,
the partial sums are those of R85, as the sum over the tested bits and as a shifted field, whatever the host did meanwhile. Only
a DECS/DECD after the last ENGINE step is excluded, for it starts the next decomposition. -/
def Obligations.PartialSumsUnderEveryInterleaving : Prop :=
  ∀ (f : Format) (s t u : State) (evs : List Event), s.status.busy = false → s.resetSeen = true →
    exec (decInstr f) s = .next t → noReset evs → noDecomposition (afterTurns (ntot f) evs) →
    steps evs.length { t with events := evs } = .next u →
    let k := min (engineTurns evs) (ntot f)
    u.kcnt.toNat = k ∧ u.status.fmt = f
      ∧ u.src = t.src ∧ u.sign = t.sign ∧ u.bexp = t.bexp ∧ u.uexp = t.uexp ∧ u.mfield = t.mfield
      ∧ fixedValue u.acc = 1 + partfrac t.mfield.toNat (ntot f) k
      ∧ fixedValue u.acc = 1 + ∑ j ∈ Finset.range k, (if t.mfield.getLsbD (ntot f - (j + 1)) then 1 / 2 ^ (j + 1) else 0)
      ∧ fixedValue u.w = 1 / 2 ^ k
      ∧ u.mant = cumulativePattern t.mfield (ntot f) k
      ∧ u.weight = weightPattern k
      ∧ (∀ j, 1 ≤ j → j ≤ k → traceEntry u.trace j = cumulativePattern t.mfield (ntot f) j)
      ∧ (∀ j, k < j → j ≤ 52 → traceEntry u.trace j = 0)

/-- R89: an accepted decomposition completes after exactly NTOT ENGINE steps, whatever the host does meanwhile, dropped
decompositions included, and only reset can abort it. The results then stay until a DECS/DECD that comes after the last step. -/
def Obligations.CompletesAfterExactlyNtotSteps : Prop :=
  ∀ (f : Format) (s t : State) (evs : List Event), s.status.busy = false → s.resetSeen = true →
    exec (decInstr f) s = .next t → noReset evs →
    ∃ u, steps evs.length { t with events := evs } = .next u
      ∧ (engineTurns evs < ntot f → u.status.busy = true ∧ u.status.done = false)
      ∧ (ntot f ≤ engineTurns evs → noDecomposition (afterTurns (ntot f) evs) →
          u.status.busy = false ∧ u.status.done = true ∧ u.kcnt.toNat = ntot f)

/-- R47, R89: once BUSY = 0 and DONE = 1, every result stays, and the ENGINE's turns change nothing, until the next DECS/DECD
or reset. -/
def Obligations.ResultsStayUntilTheNextDecomposition : Prop :=
  ∀ (s : State) (evs : List Event), s.resetSeen = true → s.status.busy = false → s.status.done = true →
    noReset evs → noDecomposition evs →
    ∃ u, steps evs.length { s with events := evs } = .next u ∧ SameResults s u
      ∧ u.status.busy = false ∧ u.status.done = true ∧ u.status.fmt = s.status.fmt

/-- R87: the final mantissa, for every pattern, and its range. -/
def Obligations.FinalMantissaIsInRange : Prop :=
  ∀ s : State, BlockInv s → s.status.done = true →
    let n := ntot s.status.fmt
    dec64 s.mant = 1 + (s.mfield.toNat : ℚ) / 2 ^ n
      ∧ 1 ≤ dec64 s.mant ∧ dec64 s.mant ≤ 2 - 1 / 2 ^ n ∧ dec64 s.mant < 2
      ∧ s.mant = 0x3FF0000000000000 ||| (s.mfield.setWidth 64 <<< (52 - n))
      ∧ (s.status.fmt = .single → s.mant = enc64 (BitVec.ofNat 53 (2 ^ 52 + s.mfield.toNat * 2 ^ 29)))
      ∧ (s.status.fmt = .double → s.mant = 0x3FF0000000000000 ||| s.mfield.setWidth 64)

/-- R88: zero, subnormal, infinity and NaN patterns are not special-cased: the same fields, the implicit leading 1 included. -/
def Obligations.SpecialExponentsAreNotSpecial : Prop :=
  ∀ s : State, BlockInv s → s.status.done = true →
    (s.bexp.toNat = 0 → s.uexp.toInt = -bias s.status.fmt)
      ∧ (s.bexp.toNat = 2 ^ expWidth s.status.fmt - 1 → s.uexp.toInt = bias s.status.fmt + 1)
      ∧ dec64 s.mant = 1 + (s.mfield.toNat : ℚ) / 2 ^ ntot s.status.fmt

/-- R106: for a completed decomposition of a normal pattern the fields reassemble to the pattern's IEEE-754 value, exactly. -/
def Obligations.FieldsReassembleToTheValue : Prop :=
  ∀ s : State, BlockInv s → s.status.done = true → isNormalPattern s.status.fmt s.src →
    patternValue s.status.fmt s.src = (-1) ^ s.sign.toNat * 2 ^ s.uexp.toInt * dec64 s.mant

/-! ### The hex loader (42_hex_encode.md) -/

/-- R10: the digit alphabet and its values; every other code is not a hex digit. -/
def Obligations.HexDigitCodes : Prop :=
  ∀ c : BitVec 8,
    (0x30 ≤ c.toNat ∧ c.toNat ≤ 0x39 → ∃ d, hexval c = some d ∧ d.toNat = c.toNat - 0x30)
      ∧ (0x41 ≤ c.toNat ∧ c.toNat ≤ 0x46 → ∃ d, hexval c = some d ∧ d.toNat = c.toNat - 0x37)
      ∧ (0x61 ≤ c.toNat ∧ c.toNat ≤ 0x66 → ∃ d, hexval c = some d ∧ d.toNat = c.toNat - 0x57)
      ∧ (¬(0x30 ≤ c.toNat ∧ c.toNat ≤ 0x39) → ¬(0x41 ≤ c.toNat ∧ c.toNat ≤ 0x46) →
          ¬(0x61 ≤ c.toNat ∧ c.toNat ≤ 0x66) → hexval c = none)

/-- R93: HEXCLR clears the loader and changes nothing else, whatever BUSY holds. -/
def Obligations.HexclrClearsTheLoader : Prop :=
  ∀ s : State, exec .hexclr s = .next { s with hn := 0, hd1 := 0, hs := 0 }

/-- R94: a valid digit is pushed and any other code sets BADDIG; nothing else changes, whatever BUSY holds. -/
def Obligations.HexdigPushesADigit : Prop :=
  ∀ (s : State) (c : BitVec 8),
    (hexval c = none → exec (.hexdig c) s = .next { s with status := { s.status with baddig := true } })
      ∧ ∀ d : BitVec 4, hexval c = some d →
        ∃ t, exec (.hexdig c) s = .next t
          ∧ t.hs.toNat = (16 * s.hs.toNat + d.toNat) % 2 ^ 64
          ∧ t.hn.toNat = min (s.hn.toNat + 1) 17
          ∧ t.hd1 = (if s.hn = 0 then d else s.hd1)
          ∧ t = { s with hs := t.hs, hn := t.hn, hd1 := t.hd1 }

/-- R96: a HEXDIG whose code is no hex digit sets BADDIG and changes nothing else, and what clears BADDIG. -/
def Obligations.HexdigRefusesOtherCodes : Prop :=
  (∀ (s : State) (c : BitVec 8), hexval c = none →
    exec (.hexdig c) s = .next { s with status := { s.status with baddig := true } })
    ∧ StickyFlag .baddig

/-- R97, R98: HEXEND writes Pack(HN, HD1, HS) to IN and changes nothing else. Pack is stated for HN = 0 to 17, the values R28
gives it. -/
def Obligations.HexendPacksTheDigits : Prop :=
  ∀ s : State,
    ∃ t, exec .hexend s = .next t
      ∧ (s.hn.toNat = 0 → t.inReg = 0)
      ∧ (s.hn.toNat = 17 → t.inReg = s.hs)
      ∧ (s.hn.toNat % 2 = 0 → 2 ≤ s.hn.toNat → s.hn.toNat ≤ 16 → t.inReg = s.hs)
      ∧ (s.hn.toNat % 2 = 1 → s.hn.toNat ≤ 15 →
          t.inReg.toNat = s.hd1.toNat * 2 ^ (4 * s.hn.toNat) + s.hs.toNat % 2 ^ (4 * (s.hn.toNat - 1)))
      ∧ t = { s with inReg := t.inReg }

/-- R95: the loader after any valid and invalid characters since the last HEXCLR, or since it was clear as reset leaves it, with
any other HOST transactions (reads, writes, NOP, HEXEND, DECS, DECD) and ENGINE turns between them. -/
def Obligations.LoaderHoldsTheDigitString : Prop :=
  ∀ (s u : State) (chars : List (BitVec 8)) (evs : List Event), s.resetSeen = true → noReset evs →
    ((∃ earlier, loaderTransactions evs = earlier ++ asmCommand .hexclr :: chars.map (fun c => asmCommand (.hexdig c)))
      ∨ (s.hn = 0 ∧ s.hd1 = 0 ∧ s.hs = 0 ∧ loaderTransactions evs = chars.map (fun c => asmCommand (.hexdig c)))) →
    steps evs.length { s with events := evs } = .next u →
    let ds := digitsOf chars
    u.hn.toNat = min ds.length 17 ∧ u.hd1 = ds.headD 0 ∧ u.hs.toNat = hexnum ds % 2 ^ 64
      ∧ u.hs.toNat = hexnum (ds.drop (ds.length - 16))

/-- R99, R92: HEXSTR of any character string leaves in IN what the source's backward scan gives for its valid digits, under
every interleaving with the ENGINE. -/
def Obligations.HexstrEqualsTheBackwardScan : Prop :=
  ∀ (s : State) (chars : List (BitVec 8)) (evs : List Event), s.resetSeen = true → noReset evs →
    hostTransactions evs = asmHexstr chars →
    ∃ u, steps evs.length { s with events := evs } = .next u ∧ u.inReg = refPack (digitsOf chars)

/-- R101 (g), the frame of the hex commands: SRC, the results, the decomposition in flight and STATUS but BADDIG are unchanged;
HEXCLR and HEXDIG leave IN as it was. -/
def Obligations.HexCommandsFrame : Prop :=
  ∀ (s : State) (c : BitVec 8) (i : Instr), i = .hexclr ∨ i = .hexdig c ∨ i = .hexend →
    ∃ t, exec i s = .next t ∧ SameResults s t ∧ SameSurroundings s t
      ∧ t.status = { s.status with baddig := t.status.baddig }
      ∧ (i ≠ .hexend → t.inReg = s.inReg) ∧ (i = .hexend → SameLoader s t ∧ t.status = s.status)

/-! ### Errors and whole-machine rules (10_state.md R36; 60_exceptions.md) -/

/-- R114 (a): one command sets at most one flag, in the order ILL, OVR, BADDIG. -/
def Obligations.OneCommandSetsAtMostOneFlag : Prop :=
  ∀ (d : Word) (s : State), ∃ t, exec (.wr slotCMD d) s = .next t ∧
    let illegal : Prop := ∃ e, decodeCommand d = .error e
    let overrun : Prop := (d.toNat = 1 ∨ d.toNat = 2) ∧ s.status.busy = true
    let badDigit : Prop := ∃ c, decodeCommand d = .ok (.hexdig c) ∧ hexval c = none
    let setsOnly (e : ErrorFlag) : Prop := ∀ f, flagSet t.status f = (flagSet s.status f || decide (f = e))
    (illegal → setsOnly .ill)
      ∧ (¬illegal → overrun → setsOnly .ovr)
      ∧ (¬illegal → ¬overrun → badDigit → setsOnly .baddig)
      ∧ (¬illegal → ¬overrun → ¬badDigit → ∀ f, flagSet t.status f = flagSet s.status f)

/-- R36: which events write each STATUS bit; no other event writes STATUS. -/
def Obligations.OnlyTheseEventsWriteStatus : Prop :=
  ∀ s t : State, step s = .next t →
    let accepted (f : Format) : Prop := s.status.busy = false
      ∧ ∃ rest, s.events = .host (asmCommand (decCommand f)) :: rest
    let wasReset : Prop := ∃ rest, s.events = .reset :: rest
    let lastStep : Prop := s.status.busy = true ∧ s.kcnt.toNat + 1 = ntot s.status.fmt
      ∧ (s.events = [] ∨ ∃ rest, s.events = .engine :: rest)
    (s.status.busy = false → t.status.busy = true → ∃ f, accepted f)
      ∧ (s.status.busy = true → t.status.busy = false → wasReset ∨ lastStep)
      ∧ (s.status.done = true → t.status.done = false → wasReset ∨ ∃ f, accepted f)
      ∧ (s.status.done = false → t.status.done = true → lastStep)
      ∧ (t.status.fmt ≠ s.status.fmt → (wasReset ∧ t.status.fmt = .single) ∨ accepted t.status.fmt)
      ∧ (s.status.ill = false → t.status.ill = true →
          ∃ d rest, s.events = .host (asmWr slotCMD d) :: rest ∧ ∃ e, decodeCommand d = .error e)
      ∧ (s.status.ovr = false → t.status.ovr = true → s.status.busy = true
          ∧ ∃ rest, s.events = .host (asmCommand .decs) :: rest ∨ s.events = .host (asmCommand .decd) :: rest)
      ∧ (s.status.baddig = false → t.status.baddig = true →
          ∃ c rest, s.events = .host (asmCommand (.hexdig c)) :: rest ∧ hexval c = none)
      ∧ (s.status.badreg = false → t.status.badreg = true →
          ∃ tr rest, s.events = .host tr :: rest
            ∧ ((tr.we = false ∧ isUnmapped tr.a = true) ∨ (tr.we = true ∧ 0x03 ≤ tr.a.toNat)))
      ∧ ∀ f : ErrorFlag, StickyFlag f

/-- R111: after a reset every step completes: no bus error, stall, halt or trap. -/
def Obligations.EveryStepAfterResetCompletes : Prop :=
  ∀ s : State, s.resetSeen = true → ∃ t, step s = .next t ∧ t.resetSeen = true

/-- R111, R135: the block never acts on a flag: two states that differ only in the sticky flags step to two states that
differ only in the sticky flags and in what a RD of STATUS returned. -/
def Obligations.TheBlockNeverActsOnAFlag : Prop :=
  ∀ s s' : State, s.resetSeen = true → SameButFlags s s' →
    ∃ t t', step s = .next t ∧ step s' = .next t' ∧ SameButFlags { t with rdata := t'.rdata } t'
      ∧ (t.rdata = t'.rdata
        ∨ ∃ d rest, s.events = .host { we := false, a := slotSTATUS, d := d } :: rest)

/-- The model's two fields `acc` and `w` influence nothing else while BUSY = 0: two states that differ only in them step to two
such states, or to the same state. Before the first decomposition that is U8 and R34; after one (DONE = 1) it rests on the model
storing MANT and WEIGHT beside `acc` and `w` (log entries 3 and 5), for ACC is observable, through MANT (R31). -/
def Obligations.IdleAccumulatorFieldsInfluenceNothingElse : Prop :=
  ∀ s s' : State, s.resetSeen = true → s.status.busy = false → SameButAccumulator s s' →
    ∃ t t', step s = .next t ∧ step s' = .next t' ∧ SameButAccumulator t t'
      ∧ (t.status.busy = true → t = t')

/-! ### The step, reset and invariants -/

/-- A step whose next event is a HOST transaction runs the decoded instruction on the state without that event; WE alone decodes
it, and a write of a command word to CMD runs the command (R53, R68). -/
def Obligations.StepRunsTheDecodedInstruction : Prop :=
  ∀ (s : State) (tr : Transaction) (rest : List Event), s.resetSeen = true → s.events = .host tr :: rest →
    step s = exec (decodeBus tr) { s with events := rest }
      ∧ ∀ i : Instr, tr = (encode i).transaction → step s = exec i { s with events := rest }

/-- R125, R127: a reset event gives every piece of state its reset value, whatever was in flight. -/
def Obligations.ResetGivesEveryResetValue : Prop :=
  ∀ (s : State) (rest : List Event), s.events = .reset :: rest →
    ∃ t, step s = .next t
      ∧ t.status.busy = false ∧ t.status.done = false ∧ t.status.fmt = .single
      ∧ (∀ f : ErrorFlag, flagSet t.status f = false)
      ∧ t.inReg = 0 ∧ t.src = 0 ∧ t.sign = 0 ∧ t.bexp = 0 ∧ t.uexp = 0 ∧ t.mfield = 0 ∧ t.mant = 0 ∧ t.weight = 0
      ∧ t.kcnt = 0 ∧ (∀ k : Fin 52, t.trace.get k = 0) ∧ t.hn = 0 ∧ t.hd1 = 0 ∧ t.hs = 0
      ∧ t.resetSeen = true ∧ t.events = rest

/-- R34: after reset every mapped slot reads 0 but ID, and the read sets no flag. -/
def Obligations.AfterResetEverySlotButIdReadsZero : Prop :=
  ∀ a : Slot, isUnmapped a = false →
    exec (.rd a) State.reset =
      .next { State.reset with rdata := if a = slotID then 0x0000000042464301 else 0 }

/-- R126: before the first reset a HOST transaction or an ENGINE step is refused; a reset is not. -/
def Obligations.NothingRunsBeforeTheFirstReset : Prop :=
  ∀ (s : State) (rest : List Event), s.resetSeen = false →
    (∀ tr : Transaction, s.events = .host tr :: rest → step s = .refused .beforeFirstReset)
      ∧ (s.events = .engine :: rest → step s = .refused .beforeFirstReset)
      ∧ (s.events = .reset :: rest → ∃ t, step s = .next t ∧ t.resetSeen = true)

/-- R37: the invariant holds right after reset, whatever events are to come. -/
def Obligations.ResetMeetsTheInvariant : Prop := ∀ evs : List Event, BlockInv { State.reset with events := evs }

/-- R37, R85, R95: every step keeps the invariant, from every state that meets it. -/
def Obligations.EveryStepKeepsTheInvariant : Prop := ∀ s t : State, BlockInv s → step s = .next t → BlockInv t

/-- Every state that some run from reset reaches, whatever events the outside world sends, meets the invariant (R37). -/
def Obligations.ReachableStatesMeetTheInvariant : Prop := ∀ s : State, Reachable s → BlockInv s

/-- Polling ends (R46, R138; the order of events is the model's, log entries 1 and 2): from every busy state, whatever finite
list of events without a reset is pending, BUSY becomes 0 within that list's length and the steps still owed. -/
def Obligations.PollingEnds : Prop :=
  ∀ s : State, BlockInv s → s.resetSeen = true → s.status.busy = true → noReset s.events →
    ∃ n t, n ≤ s.events.length + (ntot s.status.fmt - s.kcnt.toNat) ∧ steps n s = .next t
      ∧ t.status.busy = false ∧ t.status.done = true

/-- R64, R138: WAITIDLE, DECSW and DECDW with n reads of STATUS (log entry 13), under every interleaving with the ENGINE. WAITIDLE
has no effect of its own; a read that shows BUSY = 0 says that the block is idle, and with BUSY = 0 the first read shows it. After
DECSW or DECDW such a read says that the decomposition is complete. -/
def Obligations.PollingPseudoInstructionsRun : Prop :=
  ∀ (f : Format) (n : Nat) (s : State) (evs : List Event), s.resetSeen = true → noReset evs →
    (hostTransactions evs = asmWaitidle n →
      ∃ u, steps evs.length { s with events := evs } = .next u
        ∧ u.inReg = s.inReg ∧ SameLoader s u ∧ (∀ e : ErrorFlag, flagSet u.status e = flagSet s.status e)
        ∧ u.src = s.src ∧ u.sign = s.sign ∧ u.bexp = s.bexp ∧ u.uexp = s.uexp ∧ u.mfield = s.mfield
        ∧ (s.status.busy = false → u.status = s.status ∧ SameResults s u)
        ∧ (1 ≤ n → u.rdata.getLsbD 0 = false → u.status.busy = false)
        ∧ (1 ≤ n → s.status.busy = false → u.rdata = statusWord s.status))
      ∧ ((f = .single ∧ hostTransactions evs = asmDecsw n) ∨ (f = .double ∧ hostTransactions evs = asmDecdw n) →
        s.status.busy = false →
        ∃ u, steps evs.length { s with events := evs } = .next u
          ∧ u.inReg = s.inReg ∧ SameLoader s u ∧ (∀ e : ErrorFlag, flagSet u.status e = flagSet s.status e)
          ∧ u.src = latchSource f s.inReg ∧ u.status.fmt = f
          ∧ (1 ≤ n → u.rdata.getLsbD 0 = false →
              u.status.busy = false ∧ u.status.done = true ∧ u.kcnt.toNat = ntot f))
end

