-- ==== Sys2Proof/Config.lean ====
section
/-! DEFINITION. What the platform fixes (spec 92_eei_decisions.md, open parameters). No rule of the spec, and no
definition of the model, depends on a value here. -/

namespace Sys2Proof

/-- BFC_BASE: where the 128 slots sit in the host's address space (20_memory.md R43; 93_implementation_defined.md U4).
It has no value in the model (log entry 11). -/
opaque Config.bfcBase : Nat

/-- The byte address of slot A for a byte-addressed host that maps the slots contiguously: `BFC_BASE + 8*A`
(20_memory.md R43). The model itself uses slot indices only. -/
def Config.slotByteAddress (a : Slot) : Nat := Config.bfcBase + 8 * a.toNat

end Sys2Proof
end

