-- ==== Sys2Proof/Laws/State.lean ====
section
/-! SUPPORT. One lemma per field per update of the state, so that no later proof unfolds a record update. -/

namespace Sys2Proof.Machine

variable (s : State)

/-! ### `raise` -/

@[simp] theorem raise_status (f : ErrorFlag) : (s.raise f).status = setFlag s.status f := rfl
@[simp] theorem raise_inReg (f : ErrorFlag) : (s.raise f).inReg = s.inReg := rfl
@[simp] theorem raise_src (f : ErrorFlag) : (s.raise f).src = s.src := rfl
@[simp] theorem raise_sign (f : ErrorFlag) : (s.raise f).sign = s.sign := rfl
@[simp] theorem raise_bexp (f : ErrorFlag) : (s.raise f).bexp = s.bexp := rfl
@[simp] theorem raise_uexp (f : ErrorFlag) : (s.raise f).uexp = s.uexp := rfl
@[simp] theorem raise_mfield (f : ErrorFlag) : (s.raise f).mfield = s.mfield := rfl
@[simp] theorem raise_mant (f : ErrorFlag) : (s.raise f).mant = s.mant := rfl
@[simp] theorem raise_weight (f : ErrorFlag) : (s.raise f).weight = s.weight := rfl
@[simp] theorem raise_kcnt (f : ErrorFlag) : (s.raise f).kcnt = s.kcnt := rfl
@[simp] theorem raise_trace (f : ErrorFlag) : (s.raise f).trace = s.trace := rfl
@[simp] theorem raise_acc (f : ErrorFlag) : (s.raise f).acc = s.acc := rfl
@[simp] theorem raise_w (f : ErrorFlag) : (s.raise f).w = s.w := rfl
@[simp] theorem raise_hn (f : ErrorFlag) : (s.raise f).hn = s.hn := rfl
@[simp] theorem raise_hd1 (f : ErrorFlag) : (s.raise f).hd1 = s.hd1 := rfl
@[simp] theorem raise_hs (f : ErrorFlag) : (s.raise f).hs = s.hs := rfl
@[simp] theorem raise_rdata (f : ErrorFlag) : (s.raise f).rdata = s.rdata := rfl
@[simp] theorem raise_resetSeen (f : ErrorFlag) : (s.raise f).resetSeen = s.resetSeen := rfl
@[simp] theorem raise_events (f : ErrorFlag) : (s.raise f).events = s.events := rfl

/-! ### `clearFlags` -/

@[simp] theorem clearFlags_status (d : Word) : (s.clearFlags d).status = clearFlags s.status d := rfl
@[simp] theorem clearFlags_inReg (d : Word) : (s.clearFlags d).inReg = s.inReg := rfl
@[simp] theorem clearFlags_src (d : Word) : (s.clearFlags d).src = s.src := rfl
@[simp] theorem clearFlags_sign (d : Word) : (s.clearFlags d).sign = s.sign := rfl
@[simp] theorem clearFlags_bexp (d : Word) : (s.clearFlags d).bexp = s.bexp := rfl
@[simp] theorem clearFlags_uexp (d : Word) : (s.clearFlags d).uexp = s.uexp := rfl
@[simp] theorem clearFlags_mfield (d : Word) : (s.clearFlags d).mfield = s.mfield := rfl
@[simp] theorem clearFlags_mant (d : Word) : (s.clearFlags d).mant = s.mant := rfl
@[simp] theorem clearFlags_weight (d : Word) : (s.clearFlags d).weight = s.weight := rfl
@[simp] theorem clearFlags_kcnt (d : Word) : (s.clearFlags d).kcnt = s.kcnt := rfl
@[simp] theorem clearFlags_trace (d : Word) : (s.clearFlags d).trace = s.trace := rfl
@[simp] theorem clearFlags_acc (d : Word) : (s.clearFlags d).acc = s.acc := rfl
@[simp] theorem clearFlags_w (d : Word) : (s.clearFlags d).w = s.w := rfl
@[simp] theorem clearFlags_hn (d : Word) : (s.clearFlags d).hn = s.hn := rfl
@[simp] theorem clearFlags_hd1 (d : Word) : (s.clearFlags d).hd1 = s.hd1 := rfl
@[simp] theorem clearFlags_hs (d : Word) : (s.clearFlags d).hs = s.hs := rfl
@[simp] theorem clearFlags_rdata (d : Word) : (s.clearFlags d).rdata = s.rdata := rfl
@[simp] theorem clearFlags_resetSeen (d : Word) : (s.clearFlags d).resetSeen = s.resetSeen := rfl
@[simp] theorem clearFlags_events (d : Word) : (s.clearFlags d).events = s.events := rfl

/-! ### `acceptDecomposition` -/

@[simp] theorem acceptDecomposition_status (f : Format) : (acceptDecomposition f s).status = statusAccept s.status f := rfl
@[simp] theorem acceptDecomposition_inReg (f : Format) : (acceptDecomposition f s).inReg = s.inReg := rfl
@[simp] theorem acceptDecomposition_src (f : Format) : (acceptDecomposition f s).src = latchSource f s.inReg := rfl
@[simp] theorem acceptDecomposition_sign (f : Format) : (acceptDecomposition f s).sign = sliceSign f (latchSource f s.inReg) := rfl
@[simp] theorem acceptDecomposition_bexp (f : Format) : (acceptDecomposition f s).bexp = sliceBexp f (latchSource f s.inReg) := rfl
@[simp] theorem acceptDecomposition_uexp (f : Format) : (acceptDecomposition f s).uexp = sliceUexp f (latchSource f s.inReg) := rfl
@[simp] theorem acceptDecomposition_mfield (f : Format) : (acceptDecomposition f s).mfield = sliceMfield f (latchSource f s.inReg) := rfl
@[simp] theorem acceptDecomposition_mant (f : Format) : (acceptDecomposition f s).mant = enc64 fixedOne := rfl
@[simp] theorem acceptDecomposition_weight (f : Format) : (acceptDecomposition f s).weight = enc64 fixedOne := rfl
@[simp] theorem acceptDecomposition_kcnt (f : Format) : (acceptDecomposition f s).kcnt = 0 := rfl
@[simp] theorem acceptDecomposition_trace (f : Format) : (acceptDecomposition f s).trace = Vector.replicate 52 0 := rfl
@[simp] theorem acceptDecomposition_acc (f : Format) : (acceptDecomposition f s).acc = fixedOne := rfl
@[simp] theorem acceptDecomposition_w (f : Format) : (acceptDecomposition f s).w = fixedOne := rfl
@[simp] theorem acceptDecomposition_hn (f : Format) : (acceptDecomposition f s).hn = s.hn := rfl
@[simp] theorem acceptDecomposition_hd1 (f : Format) : (acceptDecomposition f s).hd1 = s.hd1 := rfl
@[simp] theorem acceptDecomposition_hs (f : Format) : (acceptDecomposition f s).hs = s.hs := rfl
@[simp] theorem acceptDecomposition_rdata (f : Format) : (acceptDecomposition f s).rdata = s.rdata := rfl
@[simp] theorem acceptDecomposition_resetSeen (f : Format) : (acceptDecomposition f s).resetSeen = s.resetSeen := rfl
@[simp] theorem acceptDecomposition_events (f : Format) : (acceptDecomposition f s).events = s.events := rfl

/-! ### `decStart` -/

@[simp] theorem decStart_inReg (f : Format) : (decStart f s).inReg = s.inReg := by unfold decStart; split <;> rfl
@[simp] theorem decStart_hn (f : Format) : (decStart f s).hn = s.hn := by unfold decStart; split <;> rfl
@[simp] theorem decStart_hd1 (f : Format) : (decStart f s).hd1 = s.hd1 := by unfold decStart; split <;> rfl
@[simp] theorem decStart_hs (f : Format) : (decStart f s).hs = s.hs := by unfold decStart; split <;> rfl
@[simp] theorem decStart_rdata (f : Format) : (decStart f s).rdata = s.rdata := by unfold decStart; split <;> rfl
@[simp] theorem decStart_resetSeen (f : Format) : (decStart f s).resetSeen = s.resetSeen := by unfold decStart; split <;> rfl
@[simp] theorem decStart_events (f : Format) : (decStart f s).events = s.events := by unfold decStart; split <;> rfl

/-! ### `engineStep` -/

@[simp] theorem engineStep_status : (engineStep s).status = if s.kcnt.toNat + 1 = ntot s.status.fmt then statusComplete s.status else s.status := rfl
@[simp] theorem engineStep_inReg : (engineStep s).inReg = s.inReg := rfl
@[simp] theorem engineStep_src : (engineStep s).src = s.src := rfl
@[simp] theorem engineStep_sign : (engineStep s).sign = s.sign := rfl
@[simp] theorem engineStep_bexp : (engineStep s).bexp = s.bexp := rfl
@[simp] theorem engineStep_uexp : (engineStep s).uexp = s.uexp := rfl
@[simp] theorem engineStep_mfield : (engineStep s).mfield = s.mfield := rfl
@[simp] theorem engineStep_mant : (engineStep s).mant = enc64 (if s.mfield.getLsbD (ntot s.status.fmt - (s.kcnt.toNat + 1)) then s.acc + s.w >>> 1 else s.acc) := rfl
@[simp] theorem engineStep_weight : (engineStep s).weight = enc64 (s.w >>> 1) := rfl
@[simp] theorem engineStep_kcnt : (engineStep s).kcnt = BitVec.ofNat 6 (s.kcnt.toNat + 1) := rfl
@[simp] theorem engineStep_trace : (engineStep s).trace = traceWrite s.trace (s.kcnt.toNat + 1) (enc64 (if s.mfield.getLsbD (ntot s.status.fmt - (s.kcnt.toNat + 1)) then s.acc + s.w >>> 1 else s.acc)) := rfl
@[simp] theorem engineStep_acc : (engineStep s).acc = (if s.mfield.getLsbD (ntot s.status.fmt - (s.kcnt.toNat + 1)) then s.acc + s.w >>> 1 else s.acc) := rfl
@[simp] theorem engineStep_w : (engineStep s).w = s.w >>> 1 := rfl
@[simp] theorem engineStep_hn : (engineStep s).hn = s.hn := rfl
@[simp] theorem engineStep_hd1 : (engineStep s).hd1 = s.hd1 := rfl
@[simp] theorem engineStep_hs : (engineStep s).hs = s.hs := rfl
@[simp] theorem engineStep_rdata : (engineStep s).rdata = s.rdata := rfl
@[simp] theorem engineStep_resetSeen : (engineStep s).resetSeen = s.resetSeen := rfl
@[simp] theorem engineStep_events : (engineStep s).events = s.events := rfl

/-! ### `engineEvent` -/

@[simp] theorem engineEvent_inReg : (engineEvent s).inReg = s.inReg := by unfold engineEvent; split <;> rfl
@[simp] theorem engineEvent_src : (engineEvent s).src = s.src := by unfold engineEvent; split <;> rfl
@[simp] theorem engineEvent_sign : (engineEvent s).sign = s.sign := by unfold engineEvent; split <;> rfl
@[simp] theorem engineEvent_bexp : (engineEvent s).bexp = s.bexp := by unfold engineEvent; split <;> rfl
@[simp] theorem engineEvent_uexp : (engineEvent s).uexp = s.uexp := by unfold engineEvent; split <;> rfl
@[simp] theorem engineEvent_mfield : (engineEvent s).mfield = s.mfield := by unfold engineEvent; split <;> rfl
@[simp] theorem engineEvent_hn : (engineEvent s).hn = s.hn := by unfold engineEvent; split <;> rfl
@[simp] theorem engineEvent_hd1 : (engineEvent s).hd1 = s.hd1 := by unfold engineEvent; split <;> rfl
@[simp] theorem engineEvent_hs : (engineEvent s).hs = s.hs := by unfold engineEvent; split <;> rfl
@[simp] theorem engineEvent_rdata : (engineEvent s).rdata = s.rdata := by unfold engineEvent; split <;> rfl
@[simp] theorem engineEvent_resetSeen : (engineEvent s).resetSeen = s.resetSeen := by unfold engineEvent; split <;> rfl
@[simp] theorem engineEvent_events : (engineEvent s).events = s.events := by unfold engineEvent; split <;> rfl

/-! ### `pushDigit` -/

@[simp] theorem pushDigit_status (d : BitVec 4) : (pushDigit d s).status = s.status := rfl
@[simp] theorem pushDigit_inReg (d : BitVec 4) : (pushDigit d s).inReg = s.inReg := rfl
@[simp] theorem pushDigit_src (d : BitVec 4) : (pushDigit d s).src = s.src := rfl
@[simp] theorem pushDigit_sign (d : BitVec 4) : (pushDigit d s).sign = s.sign := rfl
@[simp] theorem pushDigit_bexp (d : BitVec 4) : (pushDigit d s).bexp = s.bexp := rfl
@[simp] theorem pushDigit_uexp (d : BitVec 4) : (pushDigit d s).uexp = s.uexp := rfl
@[simp] theorem pushDigit_mfield (d : BitVec 4) : (pushDigit d s).mfield = s.mfield := rfl
@[simp] theorem pushDigit_mant (d : BitVec 4) : (pushDigit d s).mant = s.mant := rfl
@[simp] theorem pushDigit_weight (d : BitVec 4) : (pushDigit d s).weight = s.weight := rfl
@[simp] theorem pushDigit_kcnt (d : BitVec 4) : (pushDigit d s).kcnt = s.kcnt := rfl
@[simp] theorem pushDigit_trace (d : BitVec 4) : (pushDigit d s).trace = s.trace := rfl
@[simp] theorem pushDigit_acc (d : BitVec 4) : (pushDigit d s).acc = s.acc := rfl
@[simp] theorem pushDigit_w (d : BitVec 4) : (pushDigit d s).w = s.w := rfl
@[simp] theorem pushDigit_hn (d : BitVec 4) : (pushDigit d s).hn = BitVec.ofNat 5 (min (s.hn.toNat + 1) 17) := rfl
@[simp] theorem pushDigit_hd1 (d : BitVec 4) : (pushDigit d s).hd1 = if s.hn.toNat = 0 then d else s.hd1 := rfl
@[simp] theorem pushDigit_hs (d : BitVec 4) : (pushDigit d s).hs = s.hs <<< 4 ||| d.setWidth 64 := rfl
@[simp] theorem pushDigit_rdata (d : BitVec 4) : (pushDigit d s).rdata = s.rdata := rfl
@[simp] theorem pushDigit_resetSeen (d : BitVec 4) : (pushDigit d s).resetSeen = s.resetSeen := rfl
@[simp] theorem pushDigit_events (d : BitVec 4) : (pushDigit d s).events = s.events := rfl

/-! ### `noteRead` -/

@[simp] theorem noteRead_status (a : Slot) : (noteRead a s).status = if isUnmapped a then setFlag s.status .badreg else s.status := by unfold noteRead; split <;> rfl
@[simp] theorem noteRead_inReg (a : Slot) : (noteRead a s).inReg = s.inReg := by unfold noteRead; split <;> rfl
@[simp] theorem noteRead_src (a : Slot) : (noteRead a s).src = s.src := by unfold noteRead; split <;> rfl
@[simp] theorem noteRead_sign (a : Slot) : (noteRead a s).sign = s.sign := by unfold noteRead; split <;> rfl
@[simp] theorem noteRead_bexp (a : Slot) : (noteRead a s).bexp = s.bexp := by unfold noteRead; split <;> rfl
@[simp] theorem noteRead_uexp (a : Slot) : (noteRead a s).uexp = s.uexp := by unfold noteRead; split <;> rfl
@[simp] theorem noteRead_mfield (a : Slot) : (noteRead a s).mfield = s.mfield := by unfold noteRead; split <;> rfl
@[simp] theorem noteRead_mant (a : Slot) : (noteRead a s).mant = s.mant := by unfold noteRead; split <;> rfl
@[simp] theorem noteRead_weight (a : Slot) : (noteRead a s).weight = s.weight := by unfold noteRead; split <;> rfl
@[simp] theorem noteRead_kcnt (a : Slot) : (noteRead a s).kcnt = s.kcnt := by unfold noteRead; split <;> rfl
@[simp] theorem noteRead_trace (a : Slot) : (noteRead a s).trace = s.trace := by unfold noteRead; split <;> rfl
@[simp] theorem noteRead_acc (a : Slot) : (noteRead a s).acc = s.acc := by unfold noteRead; split <;> rfl
@[simp] theorem noteRead_w (a : Slot) : (noteRead a s).w = s.w := by unfold noteRead; split <;> rfl
@[simp] theorem noteRead_hn (a : Slot) : (noteRead a s).hn = s.hn := by unfold noteRead; split <;> rfl
@[simp] theorem noteRead_hd1 (a : Slot) : (noteRead a s).hd1 = s.hd1 := by unfold noteRead; split <;> rfl
@[simp] theorem noteRead_hs (a : Slot) : (noteRead a s).hs = s.hs := by unfold noteRead; split <;> rfl
@[simp] theorem noteRead_rdata (a : Slot) : (noteRead a s).rdata = s.rdata := by unfold noteRead; split <;> rfl
@[simp] theorem noteRead_resetSeen (a : Slot) : (noteRead a s).resetSeen = s.resetSeen := by unfold noteRead; split <;> rfl
@[simp] theorem noteRead_events (a : Slot) : (noteRead a s).events = s.events := by unfold noteRead; split <;> rfl

/-! ### `resetEvent` -/

@[simp] theorem resetEvent_status : (resetEvent s).status = State.reset.status := rfl
@[simp] theorem resetEvent_inReg : (resetEvent s).inReg = State.reset.inReg := rfl
@[simp] theorem resetEvent_src : (resetEvent s).src = State.reset.src := rfl
@[simp] theorem resetEvent_sign : (resetEvent s).sign = State.reset.sign := rfl
@[simp] theorem resetEvent_bexp : (resetEvent s).bexp = State.reset.bexp := rfl
@[simp] theorem resetEvent_uexp : (resetEvent s).uexp = State.reset.uexp := rfl
@[simp] theorem resetEvent_mfield : (resetEvent s).mfield = State.reset.mfield := rfl
@[simp] theorem resetEvent_mant : (resetEvent s).mant = State.reset.mant := rfl
@[simp] theorem resetEvent_weight : (resetEvent s).weight = State.reset.weight := rfl
@[simp] theorem resetEvent_kcnt : (resetEvent s).kcnt = State.reset.kcnt := rfl
@[simp] theorem resetEvent_trace : (resetEvent s).trace = State.reset.trace := rfl
@[simp] theorem resetEvent_acc : (resetEvent s).acc = State.reset.acc := rfl
@[simp] theorem resetEvent_w : (resetEvent s).w = State.reset.w := rfl
@[simp] theorem resetEvent_hn : (resetEvent s).hn = State.reset.hn := rfl
@[simp] theorem resetEvent_hd1 : (resetEvent s).hd1 = State.reset.hd1 := rfl
@[simp] theorem resetEvent_hs : (resetEvent s).hs = State.reset.hs := rfl
@[simp] theorem resetEvent_rdata : (resetEvent s).rdata = State.reset.rdata := rfl
@[simp] theorem resetEvent_resetSeen : (resetEvent s).resetSeen = State.reset.resetSeen := rfl
@[simp] theorem resetEvent_events : (resetEvent s).events = s.events := rfl

end Sys2Proof.Machine
end

