-- ==== Sys2Proof/Laws/Ops.lean ====
section
/-! SUPPORT. For each shared operation, what it can do, said once: flags, the trace buffer, the slots of a write, the
meaning of a legal and of an illegal command, and the events of a step. -/

namespace Sys2Proof.Machine

/-! ### Flags -/

@[simp] theorem flagSet_setFlag (st : Status) (e f : ErrorFlag) :
    flagSet (setFlag st e) f = (flagSet st f || decide (f = e)) := by
  cases e <;> cases f <;> simp [flagSet, setFlag]

@[simp] theorem setFlag_busy (st : Status) (e : ErrorFlag) : (setFlag st e).busy = st.busy := by cases e <;> rfl
@[simp] theorem setFlag_done (st : Status) (e : ErrorFlag) : (setFlag st e).done = st.done := by cases e <;> rfl
@[simp] theorem setFlag_fmt (st : Status) (e : ErrorFlag) : (setFlag st e).fmt = st.fmt := by cases e <;> rfl

@[simp] theorem clearFlags_flagSet (st : Status) (d : Word) (f : ErrorFlag) :
    flagSet (clearFlags st d) f = (flagSet st f && !d.getLsbD (errorCode f)) := by cases f <;> rfl
@[simp] theorem clearFlags_busy (st : Status) (d : Word) : (clearFlags st d).busy = st.busy := rfl
@[simp] theorem clearFlags_done (st : Status) (d : Word) : (clearFlags st d).done = st.done := rfl
@[simp] theorem clearFlags_fmt (st : Status) (d : Word) : (clearFlags st d).fmt = st.fmt := rfl

@[simp] theorem statusAccept_flagSet (st : Status) (f : Format) (e : ErrorFlag) :
    flagSet (statusAccept st f) e = flagSet st e := by cases e <;> rfl
@[simp] theorem statusAccept_busy (st : Status) (f : Format) : (statusAccept st f).busy = true := rfl
@[simp] theorem statusAccept_done (st : Status) (f : Format) : (statusAccept st f).done = false := rfl
@[simp] theorem statusAccept_fmt (st : Status) (f : Format) : (statusAccept st f).fmt = f := rfl

@[simp] theorem statusComplete_flagSet (st : Status) (e : ErrorFlag) :
    flagSet (statusComplete st) e = flagSet st e := by cases e <;> rfl
@[simp] theorem statusComplete_busy (st : Status) : (statusComplete st).busy = false := rfl
@[simp] theorem statusComplete_done (st : Status) : (statusComplete st).done = true := rfl
@[simp] theorem statusComplete_fmt (st : Status) : (statusComplete st).fmt = st.fmt := rfl

/-! ### The trace buffer -/

/-- Reading an entry after a write: the written one at its place, every other as before. -/
theorem traceEntry_traceWrite (tr : Vector Word 52) (j k : Nat) (v : Word) :
    traceEntry (traceWrite tr k v) j = if j = k ∧ 1 ≤ k ∧ k ≤ 52 then v else traceEntry tr j := by
  unfold traceEntry traceWrite
  by_cases hj : j = 0
  · subst hj
    have : ¬(0 = k ∧ 1 ≤ k ∧ k ≤ 52) := by omega
    simp only [if_true, if_neg this]
  by_cases hk : k = 0
  · subst hk
    simp [hj]
  simp only [hj, hk, if_false, Vector.getElem?_setIfInBounds]
  by_cases h : j = k
  · subst h
    by_cases hb : j ≤ 52
    · have : j - 1 < 52 := by omega
      simp [this, hb, show 1 ≤ j by omega]
    · have : ¬ j - 1 < 52 := by omega
      simp [this, hb]
  · have : ¬ k - 1 = j - 1 := by omega
    simp [h, this]

/-- Every entry of the cleared buffer is 0. -/
@[simp] theorem traceEntry_replicate (k : Nat) : traceEntry (Vector.replicate 52 0#64) k = 0#64 := by
  unfold traceEntry
  split
  · rfl
  · by_cases h : k - 1 < 52 <;> simp [h]

/-! ### Reading a slot -/

/-- A trace slot reads its entry. -/
theorem readSlot_trace (s : State) (a : Slot) (h : 0x40 ≤ a.toNat) (h' : a.toNat ≤ 0x73) :
    readSlot s a = traceEntry s.trace (a.toNat - 0x3F) := by
  have ht : isTraceSlot a = true := by simp [isTraceSlot]; omega
  unfold readSlot
  iterate 14 rw [if_neg (by omega)]
  simp [ht]

/-- An unmapped slot reads 0. -/
theorem readSlot_unmapped (s : State) (a : Slot) (h : isUnmapped a = true) : readSlot s a = 0 := by
  have hn : (0x0E ≤ a.toNat ∧ a.toNat ≤ 0x3F) ∨ 0x74 ≤ a.toNat := by simpa [isUnmapped] using h
  have ht : isTraceSlot a = false := by simp [isTraceSlot]; omega
  unfold readSlot
  iterate 14 rw [if_neg (by omega)]
  simp [ht]

/-! ### Decompositions -/

theorem decStart_of_busy (f : Format) (s : State) (h : s.status.busy = true) : decStart f s = s.raise .ovr := by
  simp [decStart, h]

theorem decStart_of_idle (f : Format) (s : State) (h : s.status.busy = false) :
    decStart f s = acceptDecomposition f s := by
  simp [decStart, h]

theorem engineEvent_of_busy (s : State) (h : s.status.busy = true) : engineEvent s = engineStep s := by
  simp [engineEvent, h]

theorem engineEvent_of_idle (s : State) (h : s.status.busy = false) : engineEvent s = s := by
  simp [engineEvent, h]

/-! ### Commands -/

/-- A legal word runs its command. -/
theorem runCommand_ok (d : Word) (s : State) (c : Command) (h : decodeCommand d = .ok c) :
    runCommand d s = exec c.toInstr s := by
  cases c <;> simp [runCommand, h, Command.toInstr, exec]

/-- An illegal word sets ILL alone. -/
theorem runCommand_error (d : Word) (s : State) (e : DecodeError) (h : decodeCommand d = .error e) :
    runCommand d s = .next (s.raise .ill) := by
  simp [runCommand, h]

/-- What a write can do: run a command, clear flags, load IN, or set BADREG. -/
theorem execWr_cases (a : Slot) (d : Word) (s : State) :
    (a = slotCMD ∧ execWr a d s = runCommand d s)
      ∨ (a = slotSTATUS ∧ execWr a d s = .next (s.clearFlags d))
      ∨ (a = slotIN ∧ execWr a d s = .next { s with inReg := d })
      ∨ (3 ≤ a.toNat ∧ execWr a d s = .next (s.raise .badreg)) := by
  by_cases h0 : a = slotCMD
  · subst h0; exact .inl ⟨rfl, rfl⟩
  by_cases h1 : a = slotSTATUS
  · subst h1; exact .inr (.inl ⟨rfl, rfl⟩)
  by_cases h2 : a = slotIN
  · subst h2; exact .inr (.inr (.inl ⟨rfl, rfl⟩))
  have n0 : a.toNat ≠ 0 := fun h => h0 (BitVec.eq_of_toNat_eq h)
  have n1 : a.toNat ≠ 1 := fun h => h1 (BitVec.eq_of_toNat_eq h)
  have n2 : a.toNat ≠ 2 := fun h => h2 (BitVec.eq_of_toNat_eq h)
  exact .inr (.inr (.inr ⟨by omega, by simp [execWr, n0, n1, n2]⟩))

/-- Every effect a HOST transaction can have, with the transaction that has it. -/
inductive HostEffect (s : State) : Transaction → State → Prop where
  | read (a : Slot) (d : Word) : HostEffect s ⟨false, a, d⟩ { noteRead a s with rdata := readSlot s a }
  | illegal (d : Word) (e : DecodeError) (h : decodeCommand d = .error e) :
      HostEffect s ⟨true, slotCMD, d⟩ (s.raise .ill)
  | nop (d : Word) (h : decodeCommand d = .ok .nop) : HostEffect s ⟨true, slotCMD, d⟩ s
  | dropped (f : Format) (d : Word) (h : decodeCommand d = .ok (decCommand f)) (hb : s.status.busy = true) :
      HostEffect s ⟨true, slotCMD, d⟩ (s.raise .ovr)
  | accepted (f : Format) (d : Word) (h : decodeCommand d = .ok (decCommand f)) (hb : s.status.busy = false) :
      HostEffect s ⟨true, slotCMD, d⟩ (acceptDecomposition f s)
  | hexclr (d : Word) (h : decodeCommand d = .ok .hexclr) :
      HostEffect s ⟨true, slotCMD, d⟩ { s with hn := 0, hd1 := 0, hs := 0 }
  | badDigit (d : Word) (c : BitVec 8) (h : decodeCommand d = .ok (.hexdig c)) (hc : hexval c = none) :
      HostEffect s ⟨true, slotCMD, d⟩ (s.raise .baddig)
  | digit (d : Word) (c : BitVec 8) (v : BitVec 4) (h : decodeCommand d = .ok (.hexdig c)) (hc : hexval c = some v) :
      HostEffect s ⟨true, slotCMD, d⟩ (pushDigit v s)
  | hexend (d : Word) (h : decodeCommand d = .ok .hexend) :
      HostEffect s ⟨true, slotCMD, d⟩ { s with inReg := packHex s.hn s.hd1 s.hs }
  | clear (d : Word) : HostEffect s ⟨true, slotSTATUS, d⟩ (s.clearFlags d)
  | load (d : Word) : HostEffect s ⟨true, slotIN, d⟩ { s with inReg := d }
  | badWrite (a : Slot) (d : Word) (h : 3 ≤ a.toNat) : HostEffect s ⟨true, a, d⟩ (s.raise .badreg)

/-- Every HOST transaction completes, with one of those effects. -/
theorem exec_decodeBus_effect (tr : Transaction) (s : State) :
    ∃ t, exec (decodeBus tr) s = .next t ∧ HostEffect s tr t := by
  obtain ⟨we, a, d⟩ := tr
  cases we
  · exact ⟨_, rfl, .read a d⟩
  rcases execWr_cases a d s with ⟨rfl, h⟩ | ⟨rfl, h⟩ | ⟨rfl, h⟩ | ⟨ha, h⟩
  · cases hd : decodeCommand d with
    | error e => exact ⟨_, h.trans (runCommand_error d s e hd), .illegal d e hd⟩
    | ok c =>
      have hr : exec (decodeBus ⟨true, slotCMD, d⟩) s = exec c.toInstr s := h.trans (runCommand_ok d s c hd)
      cases c with
      | nop => exact ⟨_, hr, .nop d hd⟩
      | decs =>
        cases hb : s.status.busy
        · exact ⟨_, hr.trans (congrArg Host.Outcome.next (decStart_of_idle .single s hb)), .accepted .single d hd hb⟩
        · exact ⟨_, hr.trans (congrArg Host.Outcome.next (decStart_of_busy .single s hb)), .dropped .single d hd hb⟩
      | decd =>
        cases hb : s.status.busy
        · exact ⟨_, hr.trans (congrArg Host.Outcome.next (decStart_of_idle .double s hb)), .accepted .double d hd hb⟩
        · exact ⟨_, hr.trans (congrArg Host.Outcome.next (decStart_of_busy .double s hb)), .dropped .double d hd hb⟩
      | hexclr => exact ⟨_, hr, .hexclr d hd⟩
      | hexdig c =>
        cases hc : hexval c with
        | none => exact ⟨_, hr.trans (by simp [Command.toInstr, exec, execHexdig, hc]), .badDigit d c hd hc⟩
        | some v => exact ⟨_, hr.trans (by simp [Command.toInstr, exec, execHexdig, hc]), .digit d c v hd hc⟩
      | hexend => exact ⟨_, hr, .hexend d hd⟩
  · exact ⟨_, h, .clear d⟩
  · exact ⟨_, h, .load d⟩
  · exact ⟨_, h, .badWrite a d ha⟩

/-! ### Lists of events -/

@[simp] theorem afterTurns_zero (events : List Event) : afterTurns 0 events = events := by cases events <;> rfl

/-- With fewer than n ENGINE turns nothing is left after the n-th. -/
theorem afterTurns_of_lt (n : Nat) (events : List Event) (h : engineTurns events < n) : afterTurns n events = [] := by
  induction events generalizing n with
  | nil => cases n <;> rfl
  | cons e rest ih =>
    cases n with
    | zero => omega
    | succ n =>
      cases e with
      | engine => exact ih n (by simp [engineTurns] at h ⊢; omega)
      | host t => exact ih (n + 1) (by simpa [engineTurns, List.count_cons] using h)
      | reset => exact ih (n + 1) (by simpa [engineTurns, List.count_cons] using h)

@[simp] theorem loaderTransactions_nil : loaderTransactions [] = [] := rfl
@[simp] theorem loaderTransactions_engine (rest : List Event) :
    loaderTransactions (.engine :: rest) = loaderTransactions rest := rfl
@[simp] theorem loaderTransactions_reset (rest : List Event) :
    loaderTransactions (.reset :: rest) = loaderTransactions rest := rfl

theorem loaderTransactions_host (t : Transaction) (rest : List Event) :
    loaderTransactions (.host t :: rest) =
      if isLoaderTransaction t = true then t :: loaderTransactions rest else loaderTransactions rest := by
  simp only [loaderTransactions, hostTransactions, List.filter_cons]

/-- The transactions that write the loader are HEXCLR and the HEXDIGs. -/
theorem isLoaderTransaction_iff (t : Transaction) :
    isLoaderTransaction t = true ↔ t = asmCommand .hexclr ∨ ∃ c, t = asmCommand (.hexdig c) := by
  have digit : ∀ c, isLoaderTransaction (asmCommand (.hexdig c)) = true := by decide +kernel
  constructor
  · intro h
    simp only [isLoaderTransaction, Bool.or_eq_true, beq_iff_eq] at h
    exact h.imp_right fun e => ⟨_, e⟩
  · rintro (rfl | ⟨c, rfl⟩)
    · decide
    · exact digit c

/-! ### The step -/

@[simp] theorem nextEvent_nil (s : State) (h : s.events = []) : nextEvent s = (.engine, s) := by
  simp [nextEvent, h]

@[simp] theorem nextEvent_cons (s : State) (e : Event) (rest : List Event) (h : s.events = e :: rest) :
    nextEvent s = (e, { s with events := rest }) := by
  simp [nextEvent, h]

/-- Everything a step that answers a next state can have done. -/
theorem step_cases (s t : State) (h : step s = .next t) :
    (∃ rest, s.events = .reset :: rest ∧ t = { State.reset with events := rest })
      ∨ (s.resetSeen = true ∧ ∃ tr rest, s.events = .host tr :: rest ∧ HostEffect { s with events := rest } tr t)
      ∨ (s.resetSeen = true ∧ ∃ rest, (s.events = .engine :: rest ∨ (s.events = [] ∧ rest = []))
          ∧ t = engineEvent { s with events := rest }) := by
  by_cases hr : s.resetSeen = true
  · cases he : s.events with
    | nil =>
      simp only [step, nextEvent_nil s he, hr, if_true, Host.Outcome.next.injEq] at h
      have hs : { s with events := [] } = s := by cases s; simp_all
      exact .inr (.inr ⟨hr, [], .inr ⟨rfl, rfl⟩, by rw [hs, h]⟩)
    | cons e rest =>
      cases e with
      | reset =>
        simp only [step, nextEvent_cons s _ rest he, Host.Outcome.next.injEq] at h
        exact .inl ⟨rest, rfl, h.symm⟩
      | engine =>
        simp only [step, nextEvent_cons s _ rest he, hr, if_true, Host.Outcome.next.injEq] at h
        exact .inr (.inr ⟨hr, rest, .inl rfl, by rw [← h, hr]⟩)
      | host tr =>
        obtain ⟨u, hu, heff⟩ := exec_decodeBus_effect tr { s with events := rest }
        simp only [step, nextEvent_cons s _ rest he, if_pos hr] at h
        have htu : t = u := by simpa using h.symm.trans hu
        exact .inr (.inl ⟨hr, tr, rest, rfl, htu ▸ heff⟩)
  · cases he : s.events with
    | nil => simp [step, he, hr] at h
    | cons e rest =>
      cases e with
      | reset =>
        simp only [step, nextEvent_cons s _ rest he, Host.Outcome.next.injEq] at h
        exact .inl ⟨rest, rfl, h.symm⟩
      | engine => simp [step, nextEvent_cons s _ rest he, hr] at h
      | host tr => simp [step, nextEvent_cons s _ rest he, hr] at h

end Sys2Proof.Machine
end

