-- ==== Sys2Proof/Laws/Operands.lean ====
section
/-! SUPPORT. For each operand function, its value in arithmetic, said once: the command decoder, the latch, the slicer,
enc64, and the loader after a digit. -/

namespace Sys2Proof

/-- The fields of command data, as numbers. -/
theorem commandData_fields (d : Word) :
    (d.extractLsb' 32 32 = 0 ↔ d.toNat / 2 ^ 32 = 0)
      ∧ (d.extractLsb' 16 16 = 0 ↔ d.toNat / 2 ^ 16 % 2 ^ 16 = 0)
      ∧ (d.extractLsb' 0 8).toNat = d.toNat % 256
      ∧ (d.extractLsb' 8 8).toNat = d.toNat / 256 % 256 := by
  have hd := d.isLt
  refine ⟨?_, ?_, by simp [BitVec.extractLsb'_toNat], by simp [BitVec.extractLsb'_toNat, Nat.shiftRight_eq_div_pow]⟩ <;>
  · rw [← BitVec.toNat_inj]
    simp [BitVec.extractLsb'_toNat, Nat.shiftRight_eq_div_pow]
    try omega

theorem byte_eq_iff (x : BitVec 8) (n : Nat) (h : n < 256) : x = BitVec.ofNat 8 n ↔ x.toNat = n := by
  rw [← BitVec.toNat_inj, BitVec.toNat_ofNat, Nat.mod_eq_of_lt h]

/-- The decoder of R59 on numbers. -/
theorem decodeCommand_toNat (d : Word) : decodeCommand d =
    if d.toNat / 2 ^ 32 ≠ 0 then .error .dataHighNonzero
    else if d.toNat / 2 ^ 16 % 2 ^ 16 ≠ 0 then .error .reservedNonzero
    else if d.toNat % 256 = 0x00 then withoutImmediate (d.extractLsb' 8 8) .nop
    else if d.toNat % 256 = 0x01 then withoutImmediate (d.extractLsb' 8 8) .decs
    else if d.toNat % 256 = 0x02 then withoutImmediate (d.extractLsb' 8 8) .decd
    else if d.toNat % 256 = 0x10 then withoutImmediate (d.extractLsb' 8 8) .hexclr
    else if d.toNat % 256 = 0x11 then .ok (.hexdig (d.extractLsb' 8 8))
    else if d.toNat % 256 = 0x12 then withoutImmediate (d.extractLsb' 8 8) .hexend
    else .error .opcodeUnassigned := by
  obtain ⟨h1, h2, h3, -⟩ := commandData_fields d
  have e : ∀ n, n < 256 → (d.extractLsb' 0 8 = BitVec.ofNat 8 n ↔ d.toNat % 256 = n) := fun n hn => by
    rw [byte_eq_iff _ n hn, h3]
  unfold decodeCommand decodeOpcode
  simp only [ne_eq, h1, h2]
  simp only [show d.extractLsb' 0 8 = 0x00 ↔ _ from e 0x00 (by decide), show d.extractLsb' 0 8 = 0x01 ↔ _ from e 0x01 (by decide),
    show d.extractLsb' 0 8 = 0x02 ↔ _ from e 0x02 (by decide), show d.extractLsb' 0 8 = 0x10 ↔ _ from e 0x10 (by decide),
    show d.extractLsb' 0 8 = 0x11 ↔ _ from e 0x11 (by decide), show d.extractLsb' 0 8 = 0x12 ↔ _ from e 0x12 (by decide)]

/-- An immediate of 0 is accepted, any other refused. -/
theorem withoutImmediate_toNat (imm : BitVec 8) (c : Command) :
    withoutImmediate imm c = if imm.toNat = 0 then .ok c else .error .immediateNonzero := by
  unfold withoutImmediate
  exact if_congr (byte_eq_iff imm 0 (by decide)) rfl rfl

namespace Machine

/-! ### The latch and the slicer -/

theorem latchSource_single_toNat (x : Word) : (latchSource .single x).toNat = x.toNat % 2 ^ 32 := by
  simp only [latchSource, BitVec.toNat_setWidth, BitVec.extractLsb'_toNat, Nat.shiftRight_eq_div_pow]
  omega

theorem sliceSign_toNat (f : Format) (x : Word) : (sliceSign f x).toNat = x.toNat / 2 ^ signPos f % 2 := by
  simp [sliceSign, BitVec.extractLsb'_toNat, Nat.shiftRight_eq_div_pow]

theorem sliceBexp_toNat (f : Format) (x : Word) : (sliceBexp f x).toNat = x.toNat / 2 ^ ntot f % 2 ^ expWidth f := by
  have : x.toNat / 2 ^ ntot f % 2 ^ expWidth f < 2 ^ 11 := by
    cases f <;> simp only [expWidth, ntot] <;> omega
  simp only [sliceBexp, BitVec.toNat_setWidth, BitVec.extractLsb'_toNat, Nat.shiftRight_eq_div_pow]
  exact Nat.mod_eq_of_lt this

theorem sliceMfield_toNat (f : Format) (x : Word) : (sliceMfield f x).toNat = x.toNat % 2 ^ ntot f := by
  have : x.toNat % 2 ^ ntot f < 2 ^ 52 := by
    cases f <;> simp only [ntot] <;> omega
  simp only [sliceMfield, BitVec.toNat_setWidth, BitVec.extractLsb'_toNat, Nat.shiftRight_eq_div_pow]
  simpa using this

/-- The integer subtraction of R80 stays in range. -/
theorem sliceUexp_toInt (f : Format) (x : Word) : (sliceUexp f x).toInt = ((sliceBexp f x).toNat : Int) - bias f := by
  have := (sliceBexp f x).isLt
  simp only [sliceUexp, BitVec.toInt_ofInt]
  rw [Int.bmod_eq_of_le] <;> cases f <;> simp only [bias] <;> omega

/-! ### `enc64` -/

/-- The pattern of a nonzero value: its exponent and mantissa fields, as one number. -/
theorem enc64_toNat (n : BitVec 53) (h : 0 < n.toNat) :
    n.toNat.log2 ≤ 52 ∧ 2 ^ 52 ≤ n.toNat * 2 ^ (52 - n.toNat.log2) ∧ n.toNat * 2 ^ (52 - n.toNat.log2) < 2 ^ 53
      ∧ (enc64 n).toNat = (971 + n.toNat.log2) * 2 ^ 52 + (n.toNat * 2 ^ (52 - n.toNat.log2) - 2 ^ 52) := by
  have hn := n.isLt
  have hp : n.toNat.log2 < 53 := (Nat.log2_lt (by omega)).2 hn
  have e : 2 ^ n.toNat.log2 * 2 ^ (52 - n.toNat.log2) = 2 ^ 52 := by rw [← pow_add]; congr 1; omega
  have q1 : 2 ^ 52 ≤ n.toNat * 2 ^ (52 - n.toNat.log2) := by
    rw [← e]; exact Nat.mul_le_mul_right _ (Nat.log2_self_le (by omega))
  have q2 : n.toNat * 2 ^ (52 - n.toNat.log2) < 2 ^ 53 := by
    have := Nat.mul_lt_mul_of_pos_right (Nat.lt_log2_self (n := n.toNat)) (show 0 < 2 ^ (52 - n.toNat.log2) by positivity)
    rwa [pow_succ, mul_right_comm, e] at this
  refine ⟨by omega, q1, q2, ?_⟩
  unfold enc64
  rw [if_neg (by omega)]
  simp only [BitVec.toNat_ofNat]
  rw [Nat.mod_eq_of_lt] <;> omega

/-! ### Commands -/

theorem exec_decInstr (f : Format) (s : State) : exec (decInstr f) s = .next (decStart f s) := by cases f <;> rfl

theorem pushDigit_hs_toNat (d : BitVec 4) (s : State) :
    (pushDigit d s).hs.toNat = (16 * s.hs.toNat + d.toNat) % 2 ^ 64 := by
  have hd := d.isLt
  rw [pushDigit_hs, BitVec.toNat_or, BitVec.toNat_shiftLeft, BitVec.toNat_setWidth, Nat.shiftLeft_eq,
    Nat.mod_eq_of_lt (a := d.toNat) (by omega),
    show s.hs.toNat * 2 ^ 4 % 2 ^ 64 = (s.hs.toNat % 2 ^ 60) <<< 4 by rw [Nat.shiftLeft_eq]; omega,
    ← Nat.shiftLeft_add_eq_or_of_lt (by omega), Nat.shiftLeft_eq]
  omega

theorem pushDigit_hn_toNat (d : BitVec 4) (s : State) : (pushDigit d s).hn.toNat = min (s.hn.toNat + 1) 17 := by
  rw [pushDigit_hn, BitVec.toNat_ofNat, Nat.mod_eq_of_lt]
  omega

end Machine

end Sys2Proof
end

