-- ==== Sys2Proof/Laws/PerInstr.lean ====
section
/-! SUPPORT. A law of the instructions as syntax, one lemma per constructor: every command's encoding is legal command
data (30_encoding.md R58, R60), and an instruction is presented on the bus as a read exactly when it is a RD (R53). -/

namespace Sys2Proof.Laws.EncodeLegal

def Statement (i : Instr) : Prop :=
  (∀ d, encode i = .cmd d → CommandData.wellFormed d = true)
    ∧ ((encode i).transaction.we = false ↔ ∃ a, i = .rd a)

theorem nop : Statement .nop :=
  ⟨fun _ h => Encoded.cmd.inj h ▸ by decide, by simp [encode, Encoded.transaction, Transaction.command]⟩

theorem decs : Statement .decs :=
  ⟨fun _ h => Encoded.cmd.inj h ▸ by decide, by simp [encode, Encoded.transaction, Transaction.command]⟩

theorem decd : Statement .decd :=
  ⟨fun _ h => Encoded.cmd.inj h ▸ by decide, by simp [encode, Encoded.transaction, Transaction.command]⟩

theorem hexclr : Statement .hexclr :=
  ⟨fun _ h => Encoded.cmd.inj h ▸ by decide, by simp [encode, Encoded.transaction, Transaction.command]⟩

theorem hexdig (c : BitVec 8) : Statement (.hexdig c) :=
  ⟨fun _ h => Encoded.cmd.inj h ▸ (by decide +kernel : ∀ c, CommandData.wellFormed (Command.data (.hexdig c)) = true) c,
    by simp [encode, Encoded.transaction, Transaction.command]⟩

theorem hexend : Statement .hexend :=
  ⟨fun _ h => Encoded.cmd.inj h ▸ by decide, by simp [encode, Encoded.transaction, Transaction.command]⟩

theorem rd (a : Slot) : Statement (.rd a) := ⟨nofun, by simp [encode, Encoded.transaction]⟩

theorem wr (a : Slot) (d : Word) : Statement (.wr a d) := ⟨nofun, by simp [encode, Encoded.transaction]⟩

end Sys2Proof.Laws.EncodeLegal
end

