-- ==== Sys2Proof/Tests/Slice0.lean ====
section
/-! SUPPORT. The model's own tests: the legality checks refuse ill-formed command words, words written out from the spec's
encodings decode, single steps give the values of 95_test_vectors.md, and every hypothesis of a statement is met somewhere. -/

namespace Sys2Proof.Tests

open Sys2Proof.Machine

-- One theorem at a time: many kernel evaluations side by side need a thread, and its stack, each.
set_option Elab.async false

/-! ### Legality smoke tests (30_encoding.md R60), one ill-formed term for each check -/

theorem test_highZero_refuses : CommandData.wellFormed 0x0000000100000000 = false := by decide
theorem test_reservedZero_refuses : CommandData.wellFormed 0x0000000000010000 = false := by decide
theorem test_opAssigned_refuses : CommandData.wellFormed 0x0000000000000003 = false := by decide
theorem test_immAllowed_refuses : CommandData.wellFormed 0x0000000000000101 = false := by decide
theorem test_wellFormed_accepts : CommandData.wellFormed 0x000000000000FF11 = true := by decide

/-! ### Decoding, the words of R58 and the header of R52 written out bit by bit -/

theorem test_decode_nop : decodeTableWord 32 0b00000000000000000000000000000000 = some .nop := by decide
theorem test_decode_decs : decodeTableWord 32 0b00000000000000000000000000000001 = some .decs := by decide
theorem test_decode_decd : decodeTableWord 32 0b00000000000000000000000000000010 = some .decd := by decide
theorem test_decode_hexclr : decodeTableWord 32 0b00000000000000000000000000010000 = some .hexclr := by decide
theorem test_decode_hexdig : decodeTableWord 32 0b00000000000000000011001100010001 = some (.hexdig 0x33) := by decide
theorem test_decode_hexend : decodeTableWord 32 0b00000000000000000000000000010010 = some .hexend := by decide
theorem test_decode_rd : decodeTableWord 8 0b01010110 = some (.rd (slotTRACE 23)) := by decide
theorem test_decode_wr : decodeTableWord 8 0b10000010 = some (.wr slotIN 0) := by decide
theorem test_decode_names_clause : decodeCommand 0x0101 = .error .immediateNonzero := by decide

/-! ### Small states -/

def completes : Result → Bool
  | .next _    => true
  | .fault _   => false
  | .refused _ => false

theorem completes_next {r : Result} (h : completes r = true) : ∃ t, r = .next t := by
  cases r with
  | next t => exact ⟨t, rfl⟩
  | fault f => cases h
  | refused f => cases h

/-- Whether an outcome is a next state in which a test holds. -/
def gives (r : Result) (p : State → Bool) : Bool :=
  match r with
  | .next t    => p t
  | .fault _   => false
  | .refused _ => false

/-- After reset, with a pattern in IN. -/
def idle (p : Word) : State := { State.reset with inReg := p }

/-- The decomposition of p in format f after n ENGINE steps. -/
def afterSteps (f : Format) (p : Word) : Nat → State
  | 0     => acceptDecomposition f (idle p)
  | n + 1 => engineStep (afterSteps f p n)

def finished (f : Format) (p : Word) : State := afterSteps f p (ntot f)

def withEvents (s : State) (events : List Event) : State := { s with events := events }

/-- One instruction as the next event, after reset. -/
def fetched (nbits w : Nat) : State := State.reset.withFetchWord nbits w

/-! ### Single steps -/

/-- 95_test_vectors.md B13. -/
theorem test_nop : gives (step (fetched 32 0)) (fun t => t == State.reset) = true := by decide +kernel

/-- 95_test_vectors.md section 3, the row 0xBF800000. -/
theorem test_decs : gives (step ((idle 0xFFFFFFFFBF800000).withFetchWord 32 1)) (fun t =>
    t.src == 0xBF800000 && t.sign == 1 && t.bexp == 127 && t.uexp == 0 && t.mfield == 0 && t.status.busy) = true := by
  decide +kernel

/-- 95_test_vectors.md E2: a decomposition while BUSY = 1 sets OVR (STATUS bits 9 and 0) and nothing else. -/
theorem test_decd_busy : gives (exec .decd (afterSteps .single 0x40490FDB 2)) (fun t =>
    statusWord t.status == 0x201 && t.src == 0x40490FDB && t.kcnt == 2) = true := by decide +kernel

/-- 95_test_vectors.md section 4, the row 0x0010000000000000. -/
theorem test_decd : gives (step ((idle 0x0010000000000000).withFetchWord 32 2)) (fun t =>
    t.bexp == 1 && t.uexp == 0xFFFFFFFFFFFFFC02 && t.status.fmt == .double) = true := by decide +kernel

/-- 95_test_vectors.md H9: HEXCLR does not change IN. -/
theorem test_hexclr : gives (step (State.withFetchWord { idle 5 with hn := 17, hd1 := 1, hs := 7 } 32 0x10))
    (fun t => t == idle 5) = true := by
  decide +kernel

/-- 42_hex_encode.md R94: 'f' after '3' gives HN = 2, HD1 = 3, HS = 0x3F. -/
theorem test_hexdig : gives (step (State.withFetchWord { State.reset with hn := 1, hd1 := 3, hs := 3 } 32 0x6611)) (fun t =>
    readSlot t slotHEXST == 0x302 && t.hs == 0x3F) = true := by decide +kernel

/-- 95_test_vectors.md H4: 'G' is refused. -/
theorem test_hexdig_bad : gives (exec (.hexdig 0x47) (idle 5)) (fun t =>
    statusWord t.status == 0x400 && t.hn == 0 && t.inReg == 5) = true := by decide +kernel

/-- 42_hex_encode.md R102: "abc" packs as 0xA0BC. -/
theorem test_hexend : gives (step (State.withFetchWord { State.reset with hn := 3, hd1 := 0xA, hs := 0xABC } 32 0x12)) (fun t =>
    t.inReg == 0xA0BC) = true := by decide +kernel

/-- 42_hex_encode.md R102: "123456789abcdef01" keeps its last 16 digits. -/
theorem test_hexend_saturated : gives (exec .hexend { State.reset with hn := 17, hd1 := 1, hs := 0x23456789ABCDEF01 })
    (fun t => t.inReg == 0x23456789ABCDEF01) = true := by decide +kernel

/-- 95_test_vectors.md B1: ID is the only nonzero slot after reset. -/
theorem test_rd_id : gives (step (fetched 8 0x0B)) (fun t => t.rdata == 0x0000000042464301) = true := by decide +kernel

/-- 95_test_vectors.md B4. -/
theorem test_rd_unmapped : gives (step (fetched 8 0x74)) (fun t => t.rdata == 0 && statusWord t.status == 0x800) = true := by
  decide +kernel

/-- 95_test_vectors.md B6: a write to a read-only slot. -/
theorem test_wr_read_only : gives (step (fetched 8 0x8B)) (fun t => statusWord t.status == 0x800) = true := by decide +kernel

/-- 40_bus_access.md R73: with STATUS = 0xB02, `WR STATUS, 0x100` gives 0xA02. -/
theorem test_wr_status :
    gives (exec (.wr slotSTATUS 0x100) { State.reset with status :=
        { Status.reset with done := true, ill := true, ovr := true, badreg := true } })
      (fun t => statusWord t.status == 0xA02) = true := by decide +kernel

/-- 95_test_vectors.md S3: two ENGINE steps of DECS on 0x40490FDB. -/
theorem test_engine : gives (step (withEvents (afterSteps .single 0x40490FDB 1) [.engine])) (fun t =>
    t.kcnt == 2 && t.weight == 0x3FD0000000000000 && t.mant == 0x3FF8000000000000 && t.status.busy) = true := by
  decide +kernel

/-- 95_test_vectors.md section 4: DECD on 0x400921FB54442D18 ends with its mantissa field below a biased exponent 1023. -/
theorem test_engine_last : (finished .double 0x400921FB54442D18).mant = 0x3FF921FB54442D18 := by decide +kernel

/-- 95_test_vectors.md E7: a reset after 5 steps. -/
theorem test_reset_clears : gives (step (withEvents (afterSteps .single 0x40490FDB 5) [.reset])) (fun t => t == State.reset)
    = true := by decide +kernel

/-! ### States of the invariant

The parts of `BlockInv` that kernel evaluation can answer on a concrete state. -/

abbrev Checks (s : State) : Prop :=
  ((s.status.fmt = .single → s.src.toNat < 2 ^ 32)
    ∧ s.sign = sliceSign s.status.fmt s.src ∧ s.bexp = sliceBexp s.status.fmt s.src
    ∧ s.uexp = sliceUexp s.status.fmt s.src ∧ s.mfield = sliceMfield s.status.fmt s.src)
    ∧ (s.mant = cumulativePattern s.mfield (ntot s.status.fmt) s.kcnt.toNat ∧ s.weight = weightPattern s.kcnt.toNat
      ∧ s.acc.toNat * 2 ^ s.kcnt.toNat
          = 2 ^ 52 * (2 ^ s.kcnt.toNat + s.mfield.toNat / 2 ^ (ntot s.status.fmt - s.kcnt.toNat))
      ∧ s.w.toNat * 2 ^ s.kcnt.toNat = 2 ^ 52)
    ∧ (∀ j : Fin 53, 1 ≤ j.val → j.val ≤ s.kcnt.toNat →
        traceEntry s.trace j = cumulativePattern s.mfield (ntot s.status.fmt) j)
    ∧ (∀ j : Fin 53, s.kcnt.toNat < j.val → traceEntry s.trace j = 0)
    ∧ s.kcnt.toNat ≤ 52 ∧ s.hn = 0 ∧ s.hd1 = 0 ∧ s.hs = 0

theorem inv_of_checks {s : State}
    (hb : (s.status.busy = true ∧ s.status.done = false ∧ s.kcnt.toNat < ntot s.status.fmt)
      ∨ (s.status.busy = false ∧ s.status.done = true ∧ s.kcnt.toNat = ntot s.status.fmt))
    (h : Checks s) : BlockInv s := by
  obtain ⟨hf, ⟨h1, h2, h3, h4⟩, h5, h6, hk, g1, g2, g3⟩ := h
  have hp : (0 : ℚ) < 2 ^ s.kcnt.toNat := by positivity
  have q3 : (s.acc.toNat : ℚ) * 2 ^ s.kcnt.toNat
      = 2 ^ 52 * (2 ^ s.kcnt.toNat + ((s.mfield.toNat / 2 ^ (ntot s.status.fmt - s.kcnt.toNat) : ℕ) : ℚ)) := by
    exact_mod_cast h3
  have q4 : (s.w.toNat : ℚ) * 2 ^ s.kcnt.toNat = 2 ^ 52 := by exact_mod_cast h4
  refine
    { busy_counts := fun hbusy => ?_, done_counts := fun hdone => ?_, idle_reset := fun hbusy hdone => ?_,
      fields := fun _ => hf, sums := fun _ => ⟨h1, h2, ?_, ?_, fun j j1 j2 => h5 ⟨j, by omega⟩ j1 j2⟩,
      trace_clear := fun j j1 j2 => h6 ⟨j, by omega⟩ j1, loader := ?_ }
  · rcases hb with h | h <;> simp_all
  · rcases hb with h | h <;> simp_all
  · rcases hb with h | h <;> simp_all
  · unfold fixedValue partfrac
    field_simp
    linarith
  · unfold fixedValue
    field_simp
    linarith
  · simp [LoaderConsistent, g1, g2, g3]

theorem inv_withEvents {s : State} (h : BlockInv s) (events : List Event) : BlockInv (withEvents s events) :=
  { busy_counts := h.busy_counts, done_counts := h.done_counts, idle_reset := h.idle_reset, fields := h.fields,
    sums := h.sums, trace_clear := h.trace_clear, loader := h.loader }

theorem inv_reset : BlockInv State.reset :=
  { busy_counts := nofun, done_counts := nofun
    idle_reset := fun _ _ => ⟨rfl, rfl, rfl, rfl, rfl, rfl, rfl, rfl, rfl, rfl⟩
    fields := by rintro (h | h) <;> cases h
    sums := by rintro (h | h) <;> cases h
    trace_clear := fun k _ _ => traceEntry_replicate k
    loader := ⟨by decide, fun _ => ⟨rfl, rfl⟩, fun h => absurd h (by decide)⟩ }

/-- pi rounded to binary32, just accepted. -/
theorem inv_accepted : BlockInv (afterSteps .single 0x40490FDB 0) :=
  inv_of_checks (.inl (by decide +kernel)) (by decide +kernel)

/-- The same with one step owed. -/
theorem inv_last : BlockInv (afterSteps .single 0x40490FDB 22) :=
  inv_of_checks (.inl (by decide +kernel)) (by decide +kernel)

/-- pi rounded to binary64, with one step owed. -/
theorem inv_last_double : BlockInv (afterSteps .double 0x400921FB54442D18 51) :=
  inv_of_checks (.inl (by decide +kernel)) (by decide +kernel)

theorem inv_single : BlockInv (finished .single 0x40490FDB) :=
  inv_of_checks (.inr (by decide +kernel)) (by decide +kernel)

theorem inv_double : BlockInv (finished .double 0x400921FB54442D18) :=
  inv_of_checks (.inr (by decide +kernel)) (by decide +kernel)

/-- The smallest and the largest normal exponents. -/
theorem inv_single_smallest : BlockInv (finished .single 0x00800000) :=
  inv_of_checks (.inr (by decide +kernel)) (by decide +kernel)

theorem inv_double_largest : BlockInv (finished .double 0x7FEFFFFFFFFFFFFF) :=
  inv_of_checks (.inr (by decide +kernel)) (by decide +kernel)

/-- Zero, all ones, the largest subnormal and an infinity. -/
theorem inv_single_zero : BlockInv (finished .single 0) :=
  inv_of_checks (.inr (by decide +kernel)) (by decide +kernel)

theorem inv_single_nan : BlockInv (finished .single 0xFFFFFFFF) :=
  inv_of_checks (.inr (by decide +kernel)) (by decide +kernel)

theorem inv_double_subnormal : BlockInv (finished .double 0x000FFFFFFFFFFFFF) :=
  inv_of_checks (.inr (by decide +kernel)) (by decide +kernel)

theorem inv_double_infinity : BlockInv (finished .double 0x7FF0000000000000) :=
  inv_of_checks (.inr (by decide +kernel)) (by decide +kernel)

/-! ### Witnesses: for every statement with hypotheses, operands that meet them all, one for each clause -/

/-- The error a word decodes to, or none. -/
def errorOf (d : Word) : Option DecodeError :=
  match decodeCommand d with
  | .ok _    => none
  | .error e => some e

theorem error_of {d : Word} (h : (errorOf d).isSome = true) : ∃ e, decodeCommand d = .error e := by
  unfold errorOf at h
  cases hd : decodeCommand d with
  | ok c => simp [hd] at h
  | error e => exact ⟨e, rfl⟩

theorem witness_EachCommandHasExactlyItsWord :
    ∀ r ∈ commandTable, ∃ d : Word, d.toNat < 2 ^ 32 ∧ r.matchesWord (d.setWidth 32) = true := by
  intro r hr
  refine ⟨r.pattern.setWidth 64, ?_⟩
  revert hr r
  decide

theorem witness_DecodeEncodeAgreeAndRun : (Instr.wr 0x7F 5).wellFormed = true ∧ (Instr.hexdig 0xFF).wellFormed = true := by
  decide

theorem witness_DecodedObjectsReencode :
    decode (.cmd 0x0000FF11) = .ok (.hexdig 0xFF) ∧ decode (.bus { we := false, a := 0x7F, d := 9 }) = .ok (.rd 0x7F) :=
  ⟨rfl, rfl⟩

theorem witness_CommandTableMatchesAndMasks : { mnemonic := "HEXDIG", pattern := 0x11, mask := 0xFFFF00FF } ∈ commandTable := by
  decide

/-- One word for each clause of R60, at its smallest value. -/
theorem witness_IllegalEncodingsOnlySetIll :
    (∃ e, decodeCommand 0x0000000100000000 = .error e) ∧ (∃ e, decodeCommand 0x00010000 = .error e)
      ∧ (∃ e, decodeCommand 0x03 = .error e) ∧ (∃ e, decodeCommand 0x13 = .error e) ∧ ∃ e, decodeCommand 0x0100 = .error e :=
  ⟨error_of (by decide), error_of (by decide), error_of (by decide), error_of (by decide), error_of (by decide)⟩

/-- The ends of the two unmapped ranges. -/
theorem witness_ReadReturnsTheSlot : ∀ a ∈ [(0x0E : Slot), 0x3F, 0x74, 0x7F],
    (0x0E ≤ a.toNat ∧ a.toNat ≤ 0x3F) ∨ 0x74 ≤ a.toNat := by
  decide

theorem witness_WriteDispatchesOnTheSlot :
    decodeCommand 0x00003311 = .ok (.hexdig 0x33) ∧ (∃ e, decodeCommand 0x0101 = .error e)
      ∧ 0x03 ≤ slotSRC.toNat ∧ 0x03 ≤ (0x7F : Slot).toNat :=
  ⟨rfl, error_of (by decide), by decide, by decide⟩

/-- A flag that a step clears: by a write-1 to STATUS, and by a reset. -/
theorem witness_StickyFlag : ∀ f : ErrorFlag, ∃ s t : State, step s = .next t ∧ flagSet s.status f = true
    ∧ flagSet t.status f = false := by
  intro f
  refine ⟨withEvents (State.reset.raise f) [.host (asmWr slotSTATUS 0xF00)],
    withEvents ((State.reset.raise f).clearFlags 0xF00) [], rfl, ?_, ?_⟩ <;> cases f <;> decide

theorem witness_StickyFlag_reset : ∀ f : ErrorFlag, ∃ s t : State, step s = .next t ∧ flagSet s.status f = true
    ∧ flagSet t.status f = false := by
  intro f
  refine ⟨withEvents (State.reset.raise f) [.reset], State.reset, rfl, ?_, ?_⟩ <;> cases f <;> decide

/-- The ends of the ranges of R69; its sticky clause has `witness_StickyFlag`. -/
theorem witness_BadregCasesChangeNothingElse :
    (∀ a ∈ [(0x0E : Slot), 0x3F, 0x74, 0x7F], (0x0E ≤ a.toNat ∧ a.toNat ≤ 0x3F) ∨ 0x74 ≤ a.toNat)
      ∧ ∀ a ∈ [(0x03 : Slot), 0x0D, 0x40, 0x73], (0x03 ≤ a.toNat ∧ a.toNat ≤ 0x0D) ∨ (0x40 ≤ a.toNat ∧ a.toNat ≤ 0x73) := by
  decide

/-- The sticky clause has `witness_StickyFlag`. -/
theorem witness_IllegalCommandSetsIllAndSticks : ∃ e, decodeCommand 0xFF = .error e := error_of (by decide)

/-- The block is idle after reset and after a finished decomposition. -/
theorem witness_AcceptanceSlicesTheLatchedPattern : (idle 0xFFFFFFFFFFFFFFFF).status.busy = false := rfl

theorem witness_AcceptanceInitialisesTheAccumulator :
    (finished .double 0x400921FB54442D18).status.busy = false := by decide +kernel

theorem witness_AcceptanceFrame : ((idle 5).raise .ovr).status.busy = false := rfl

/-- Both clauses; the accepted one with DONE = 0 and with DONE = 1. -/
theorem witness_BusyDecompositionIsDropped :
    (afterSteps .single 0x40490FDB 2).status.busy = true ∧ (idle 0).status.busy = false
      ∧ (finished .single 0x40490FDB).status.busy = false ∧ (finished .single 0x40490FDB).status.done = true := by
  decide +kernel

theorem decs_accepted (s : State) (h : s.status.busy = false) : exec .decs s = .next (acceptDecomposition .single s) :=
  congrArg Host.Outcome.next (decStart_of_idle .single s h)

theorem decd_accepted (s : State) (h : s.status.busy = false) : exec .decd s = .next (acceptDecomposition .double s) :=
  congrArg Host.Outcome.next (decStart_of_idle .double s h)

/-- Some turns, host transactions among which a dropped DECD, and a write to IN. -/
def mixedEvents : List Event :=
  [.engine, .host (asmRd slotMANT), .host (asmWr slotIN 0), .engine, .host (asmCommand .decd), .engine]

/-- A decomposition of n steps with a DECS dropped before the last, and a RD after it. -/
def droppedEvents (n : Nat) : List Event :=
  List.replicate (n - 1) .engine ++ [.host (asmCommand .decs), .engine, .engine, .host (asmRd slotMANT)]

theorem dropped_run (f : Format) : completes (steps (droppedEvents (ntot f)).length
      { acceptDecomposition f (idle 5) with events := droppedEvents (ntot f) }) = true
    ∧ noReset (droppedEvents (ntot f)) ∧ ntot f ≤ engineTurns (droppedEvents (ntot f))
    ∧ ¬noDecomposition (droppedEvents (ntot f)) ∧ noDecomposition (afterTurns (ntot f) (droppedEvents (ntot f))) := by
  unfold noReset noDecomposition
  cases f <;> decide +kernel

theorem exec_accepted (f : Format) (s : State) (h : s.status.busy = false) :
    exec (decInstr f) s = .next (acceptDecomposition f s) := by
  cases f
  · exact decs_accepted s h
  · exact decd_accepted s h

/-- DECS of two values of IN that agree in IN[31:0] alone, with different events and equal turns; and DECD of one value, to
its end, from two states. -/
theorem witness_DecompositionDependsOnTheOperandOnly :
    (∃ (s s' t t' u u' : State) (evs evs' : List Event), s ≠ s' ∧ evs ≠ evs' ∧ s.status.busy = false ∧ s'.status.busy = false
        ∧ s.resetSeen = true ∧ s'.resetSeen = true ∧ s.inReg.toNat % 2 ^ 32 = s'.inReg.toNat % 2 ^ 32
        ∧ exec (decInstr .single) s = .next t ∧ exec (decInstr .single) s' = .next t' ∧ noReset evs ∧ noReset evs'
        ∧ noDecomposition (afterTurns (ntot .single) evs) ∧ noDecomposition (afterTurns (ntot .single) evs')
        ∧ min (engineTurns evs) (ntot .single) = min (engineTurns evs') (ntot .single)
        ∧ steps evs.length { t with events := evs } = .next u ∧ steps evs'.length { t' with events := evs' } = .next u')
      ∧ ∃ (s s' t t' u u' : State) (evs : List Event), s ≠ s' ∧ s.status.busy = false ∧ s'.status.busy = false
        ∧ s.resetSeen = true ∧ s'.resetSeen = true ∧ s.inReg = s'.inReg
        ∧ exec (decInstr .double) s = .next t ∧ exec (decInstr .double) s' = .next t' ∧ noReset evs
        ∧ noDecomposition (afterTurns (ntot .double) evs) ∧ ntot .double ≤ engineTurns evs
        ∧ steps evs.length { t with events := evs } = .next u ∧ steps evs.length { t' with events := evs } = .next u' := by
  obtain ⟨u, hu⟩ := completes_next
    (r := steps mixedEvents.length { acceptDecomposition .single (idle 5) with events := mixedEvents }) (by decide +kernel)
  obtain ⟨u', hu'⟩ := completes_next
    (r := steps 3 { acceptDecomposition .single (idle 0xFFFFFFFF00000005) with events := [.engine, .engine, .engine] })
    (by decide +kernel)
  obtain ⟨d1, d2, d3, -, d5⟩ := dropped_run .double
  obtain ⟨v, hv⟩ := completes_next d1
  obtain ⟨v', hv'⟩ := completes_next (r := steps (droppedEvents 52).length
    { acceptDecomposition .double { finished .double 7 with inReg := 5 } with events := droppedEvents 52 }) (by decide +kernel)
  exact ⟨⟨idle 5, idle 0xFFFFFFFF00000005, _, _, u, u', mixedEvents, [.engine, .engine, .engine], by decide, by decide, rfl,
      rfl, rfl, rfl, by decide, decs_accepted _ rfl, decs_accepted _ rfl, by unfold noReset; decide,
      by unfold noReset; decide, by unfold noDecomposition; decide, by unfold noDecomposition; decide, by decide, hu, hu'⟩,
    ⟨idle 5, { finished .double 7 with inReg := 5 }, _, _, v, v', droppedEvents 52, by decide +kernel, rfl,
      by decide +kernel, rfl, by decide +kernel, rfl, decd_accepted _ rfl, decd_accepted _ (by decide +kernel), d2, d5, d3,
      hv, hv'⟩⟩

/-- The ends of the two ranges. -/
theorem witness_EncodesAccumulatorValuesAsBinary64 : 0 < 2 ^ 52 ∧ 2 ^ 52 - 1 < 2 ^ 52 ∧ 0 ≤ 52 ∧ 52 ≤ 52 := by decide

theorem witness_AccumulatorPatternsAreExact : 0 < (1 : BitVec 53).toNat ∧ 0 < (BitVec.allOnes 53).toNat := by decide

/-- The first and the last step of a decomposition, and an idle block. -/
theorem witness_EngineStepHalvesThenTests :
    (∃ s rest, s.resetSeen = true ∧ s.events = .engine :: rest ∧ BlockInv s ∧ s.status.busy = true)
      ∧ (∃ s rest, s.resetSeen = true ∧ s.events = .engine :: rest ∧ BlockInv s ∧ s.status.busy = true
        ∧ s.kcnt.toNat + 1 = ntot s.status.fmt)
      ∧ ∃ s rest, s.resetSeen = true ∧ s.events = .engine :: rest ∧ BlockInv s ∧ s.status.busy = false :=
  ⟨⟨withEvents (afterSteps .single 0x40490FDB 0) [.engine], [], rfl, rfl, inv_withEvents inv_accepted _, rfl⟩,
    ⟨withEvents (afterSteps .double 0x400921FB54442D18 51) [.engine], [], by decide +kernel, rfl,
      inv_withEvents inv_last_double _, by decide +kernel, by decide +kernel⟩,
    ⟨withEvents State.reset [.engine], [], rfl, rfl, inv_withEvents inv_reset _, rfl⟩⟩

theorem witness_EngineTurnKeepsTheModelFields :
    (∃ s t rest, s.events = .engine :: rest ∧ step s = .next t) ∧ ∃ s : State, s.events = [] :=
  ⟨⟨withEvents State.reset [.engine, .reset], _, [.reset], rfl, rfl⟩, ⟨State.reset, rfl⟩⟩

theorem witness_EngineStepHasTheBitLevelForm :
    ∃ s t rest, s.resetSeen = true ∧ s.events = .engine :: rest ∧ s.status.busy = true ∧ BlockInv s ∧ step s = .next t :=
  ⟨withEvents (afterSteps .single 0x40490FDB 0) [.engine], _, [], rfl, rfl, rfl, inv_withEvents inv_accepted _, rfl⟩

/-- In both formats: fewer than NTOT turns with a decomposition among the events, and more than NTOT turns with one that is
dropped before the last step. -/
theorem witness_PartialSumsUnderEveryInterleaving : ∀ f : Format,
    (∃ s t u evs, s.status.busy = false ∧ s.resetSeen = true ∧ exec (decInstr f) s = .next t ∧ noReset evs
        ∧ noDecomposition (afterTurns (ntot f) evs) ∧ engineTurns evs < ntot f ∧ ¬noDecomposition evs
        ∧ steps evs.length { t with events := evs } = .next u)
      ∧ ∃ s t u evs, s.status.busy = false ∧ s.resetSeen = true ∧ exec (decInstr f) s = .next t ∧ noReset evs
        ∧ noDecomposition (afterTurns (ntot f) evs) ∧ ntot f ≤ engineTurns evs ∧ ¬noDecomposition evs
        ∧ steps evs.length { t with events := evs } = .next u := by
  intro f
  obtain ⟨u, hu⟩ := completes_next
    (r := steps mixedEvents.length { acceptDecomposition f (idle 5) with events := mixedEvents }) (by cases f <;> decide +kernel)
  obtain ⟨d1, d2, d3, d4, d5⟩ := dropped_run f
  obtain ⟨v, hv⟩ := completes_next d1
  exact ⟨⟨idle 5, _, u, mixedEvents, rfl, rfl, exec_accepted f _ rfl, by unfold noReset; decide,
      by unfold noDecomposition; cases f <;> decide, by cases f <;> decide, by unfold noDecomposition; decide, hu⟩,
    ⟨idle 5, _, v, droppedEvents (ntot f), rfl, rfl, exec_accepted f _ rfl, d2, d5, d3, d4, hv⟩⟩

theorem witness_CompletesAfterExactlyNtotSteps : ∀ f : Format,
    (∃ s t evs, s.status.busy = false ∧ s.resetSeen = true ∧ exec (decInstr f) s = .next t ∧ noReset evs
        ∧ engineTurns evs < ntot f ∧ ¬noDecomposition evs)
      ∧ ∃ s t evs, s.status.busy = false ∧ s.resetSeen = true ∧ exec (decInstr f) s = .next t ∧ noReset evs
        ∧ ntot f ≤ engineTurns evs ∧ noDecomposition (afterTurns (ntot f) evs) ∧ ¬noDecomposition evs := by
  intro f
  obtain ⟨-, d2, d3, d4, d5⟩ := dropped_run f
  exact ⟨⟨idle 5, _, mixedEvents, rfl, rfl, exec_accepted f _ rfl, by unfold noReset; decide, by cases f <;> decide,
      by unfold noDecomposition; decide⟩,
    ⟨idle 5, _, droppedEvents (ntot f), rfl, rfl, exec_accepted f _ rfl, d2, d3, d5, d4⟩⟩

theorem witness_ResultsStayUntilTheNextDecomposition :
    ∃ (s : State) (evs : List Event), s.resetSeen = true ∧ s.status.busy = false ∧ s.status.done = true ∧ noReset evs
      ∧ noDecomposition evs :=
  ⟨finished .single 0x40490FDB, [.engine, .host (asmCommand .hexclr), .host (asmRd 0x0E)], by decide +kernel,
    by decide +kernel, by decide +kernel, by unfold noReset; decide, by unfold noDecomposition; decide⟩

/-- A finished DECS and a finished DECD. -/
theorem witness_FinalMantissaIsInRange :
    (∃ s, BlockInv s ∧ s.status.done = true ∧ s.status.fmt = .single)
      ∧ ∃ s, BlockInv s ∧ s.status.done = true ∧ s.status.fmt = .double :=
  ⟨⟨finished .single 0x40490FDB, inv_single, by decide +kernel, by decide +kernel⟩,
    ⟨finished .double 0x400921FB54442D18, inv_double, by decide +kernel, by decide +kernel⟩⟩

/-- Both special exponents in both formats. -/
theorem witness_SpecialExponentsAreNotSpecial :
    ∀ f : Format, (∃ s, BlockInv s ∧ s.status.done = true ∧ s.status.fmt = f ∧ s.bexp.toNat = 0)
      ∧ ∃ s, BlockInv s ∧ s.status.done = true ∧ s.status.fmt = f ∧ s.bexp.toNat = 2 ^ expWidth s.status.fmt - 1
  | .single =>
    ⟨⟨finished .single 0, inv_single_zero, by decide +kernel, by decide +kernel, by decide +kernel⟩,
      ⟨finished .single 0xFFFFFFFF, inv_single_nan, by decide +kernel, by decide +kernel, by decide +kernel⟩⟩
  | .double =>
    ⟨⟨finished .double 0x000FFFFFFFFFFFFF, inv_double_subnormal, by decide +kernel, by decide +kernel, by decide +kernel⟩,
      ⟨finished .double 0x7FF0000000000000, inv_double_infinity, by decide +kernel, by decide +kernel, by decide +kernel⟩⟩

/-- The smallest normal exponent of binary32 and the largest of binary64. -/
theorem witness_FieldsReassembleToTheValue :
    (∃ s, BlockInv s ∧ s.status.done = true ∧ isNormalPattern s.status.fmt s.src ∧ s.bexp.toNat = 1)
      ∧ ∃ s, BlockInv s ∧ s.status.done = true ∧ isNormalPattern s.status.fmt s.src ∧ s.bexp.toNat = 2046 :=
  ⟨⟨finished .single 0x00800000, inv_single_smallest, by decide +kernel, by unfold isNormalPattern; decide +kernel,
      by decide +kernel⟩,
    ⟨finished .double 0x7FEFFFFFFFFFFFFF, inv_double_largest, by decide +kernel, by unfold isNormalPattern; decide +kernel,
      by decide +kernel⟩⟩

/-- Both ends of each of the three ranges, and both neighbours of each. -/
theorem witness_HexDigitCodes :
    (∀ c ∈ [(0x30 : BitVec 8), 0x39], 0x30 ≤ c.toNat ∧ c.toNat ≤ 0x39)
      ∧ (∀ c ∈ [(0x41 : BitVec 8), 0x46], 0x41 ≤ c.toNat ∧ c.toNat ≤ 0x46)
      ∧ (∀ c ∈ [(0x61 : BitVec 8), 0x66], 0x61 ≤ c.toNat ∧ c.toNat ≤ 0x66)
      ∧ ∀ c ∈ [(0x2F : BitVec 8), 0x3A, 0x40, 0x47, 0x60, 0x67], ¬(0x30 ≤ c.toNat ∧ c.toNat ≤ 0x39)
        ∧ ¬(0x41 ≤ c.toNat ∧ c.toNat ≤ 0x46) ∧ ¬(0x61 ≤ c.toNat ∧ c.toNat ≤ 0x66) := by
  decide

theorem witness_HexdigPushesADigit : hexval 0x39 = some 9 ∧ hexval 0x66 = some 15 ∧ hexval 0x67 = none := by decide

/-- The sticky clause has `witness_StickyFlag`. -/
theorem witness_HexdigRefusesOtherCodes : hexval 0x00 = none ∧ hexval 0x3A = none := by decide

/-- HN at the ends of each clause; no value falls under two. -/
theorem witness_HexendPacksTheDigits :
    (∃ s : State, s.hn.toNat = 0) ∧ (∃ s : State, s.hn.toNat = 17)
      ∧ (∀ n ∈ [2, 16], ∃ s : State, s.hn.toNat = n ∧ s.hn.toNat % 2 = 0 ∧ 2 ≤ s.hn.toNat ∧ s.hn.toNat ≤ 16)
      ∧ ∀ n ∈ [1, 15], ∃ s : State, s.hn.toNat = n ∧ s.hn.toNat % 2 = 1 ∧ s.hn.toNat ≤ 15 := by
  refine ⟨⟨State.reset, rfl⟩, ⟨{ State.reset with hn := 17 }, rfl⟩, fun n hn => ⟨{ State.reset with hn := BitVec.ofNat 5 n }, ?_⟩,
    fun n hn => ⟨{ State.reset with hn := BitVec.ofNat 5 n }, ?_⟩⟩ <;> revert hn n <;> decide

/-- Two digits, then HEXCLR, a digit, a refused character and a digit, with ENGINE turns and every other kind of HOST
transaction between them. -/
def loaderEvents : List Event :=
  [.host (asmCommand (.hexdig 0x31)), .host (asmCommand (.hexdig 0x32)), .host (asmCommand .hexclr), .engine,
    .host (asmCommand (.hexdig 0x61)), .host (asmCommand .decs), .engine, .host (asmRd slotHEXST), .host (asmWr slotIN 9),
    .host (asmCommand .nop), .host (asmCommand (.hexdig 0x78)), .host (asmCommand .hexend), .host (asmWr slotCMD 3),
    .host (asmCommand (.hexdig 0x62))]

/-- Both clauses: since a HEXCLR, and since reset. -/
theorem witness_LoaderHoldsTheDigitString :
    (∃ (s u : State) (chars : List (BitVec 8)) (evs : List Event), s.resetSeen = true ∧ noReset evs
        ∧ (∃ earlier, loaderTransactions evs = earlier ++ asmCommand .hexclr :: chars.map (fun c => asmCommand (.hexdig c)))
        ∧ steps evs.length { s with events := evs } = .next u)
      ∧ ∃ (s u : State) (chars : List (BitVec 8)) (evs : List Event), s.resetSeen = true ∧ noReset evs
        ∧ (s.hn = 0 ∧ s.hd1 = 0 ∧ s.hs = 0 ∧ loaderTransactions evs = chars.map (fun c => asmCommand (.hexdig c)))
        ∧ steps evs.length { s with events := evs } = .next u := by
  obtain ⟨u, hu⟩ := completes_next (r := steps loaderEvents.length { afterSteps .single 5 2 with events := loaderEvents })
    (by decide +kernel)
  obtain ⟨v, hv⟩ := completes_next
    (r := steps 2 { State.reset with events := [.host (asmCommand .hexend), .host (asmCommand (.hexdig 0x61))] })
    (by decide +kernel)
  exact ⟨⟨afterSteps .single 5 2, u, [0x61, 0x78, 0x62], loaderEvents, by decide +kernel, by unfold noReset; decide,
      ⟨[asmCommand (.hexdig 0x31), asmCommand (.hexdig 0x32)], by decide +kernel⟩, hu⟩,
    ⟨State.reset, v, [0x61], [.host (asmCommand .hexend), .host (asmCommand (.hexdig 0x61))], rfl, by unfold noReset; decide,
      ⟨rfl, rfl, rfl, by decide +kernel⟩, hv⟩⟩

theorem witness_HexstrEqualsTheBackwardScan :
    ∃ (s : State) (chars : List (BitVec 8)) (evs : List Event), s.resetSeen = true ∧ noReset evs
      ∧ hostTransactions evs = asmHexstr chars :=
  ⟨State.reset, [0x61, 0x62, 0x63], .engine :: (asmHexstr [0x61, 0x62, 0x63]).map .host, rfl,
    by unfold noReset; decide, rfl⟩

theorem witness_HexCommandsFrame :
    ∀ i ∈ [Instr.hexclr, .hexdig 0x61, .hexdig 0x78, .hexend], ∃ c, i = .hexclr ∨ i = .hexdig c ∨ i = .hexend := by
  intro i h
  simp only [List.mem_cons, List.not_mem_nil, or_false] at h
  rcases h with rfl | rfl | rfl | rfl
  · exact ⟨0, .inl rfl⟩
  · exact ⟨_, .inr (.inl rfl)⟩
  · exact ⟨_, .inr (.inl rfl)⟩
  · exact ⟨0, .inr (.inr rfl)⟩

/-- Each of the four clauses: an illegal word, a DECS while BUSY = 1, a bad digit, and NOP. -/
theorem witness_OneCommandSetsAtMostOneFlag :
    (∃ e, decodeCommand 0x0102 = .error e)
      ∧ (decodeCommand 0x01 = .ok .decs ∧ (0x01 : Word).toNat = 1 ∧ (afterSteps .single 5 2).status.busy = true)
      ∧ (decodeCommand 0x7A11 = .ok (.hexdig 0x7A) ∧ hexval 0x7A = none)
      ∧ decodeCommand 0x00 = .ok .nop :=
  ⟨error_of (by decide), ⟨rfl, rfl, by decide +kernel⟩, ⟨rfl, rfl⟩, rfl⟩

/-- Whether one step takes a state with a first STATUS property to one with a second. -/
def turns (s : State) (p q : Status → Bool) : Bool := p s.status && gives (step s) (fun t => q t.status)

/-- Each change of STATUS happens: BUSY both ways, DONE both ways, FMT both ways, and each flag set. -/
theorem witness_OnlyTheseEventsWriteStatus :
    turns (withEvents (idle 5) [.host (asmCommand .decs)]) (fun st => !st.busy) (fun st => st.busy)
      ∧ turns (afterSteps .single 5 22) (fun st => st.busy && !st.done) (fun st => !st.busy && st.done)
      ∧ turns (withEvents (afterSteps .double 5 3) [.reset]) (fun st => st.busy && st.fmt == .double)
          (fun st => !st.busy && st.fmt == .single)
      ∧ turns (withEvents (finished .single 5) [.host (asmCommand .decd)]) (fun st => st.done && st.fmt == .single)
          (fun st => !st.done && st.fmt == .double)
      ∧ turns (withEvents (idle 5) [.host (asmWr slotCMD 3)]) (fun st => !st.ill) (fun st => st.ill)
      ∧ turns (withEvents (afterSteps .single 5 0) [.host (asmCommand .decd)]) (fun st => !st.ovr) (fun st => st.ovr)
      ∧ turns (withEvents (idle 5) [.host (asmCommand (.hexdig 0))]) (fun st => !st.baddig) (fun st => st.baddig)
      ∧ turns (withEvents (idle 5) [.host (asmRd 0x0E)]) (fun st => !st.badreg) (fun st => st.badreg)
      ∧ turns (withEvents (idle 5) [.host (asmWr 0x03 0)]) (fun st => !st.badreg) (fun st => st.badreg) := by
  decide +kernel

theorem witness_EveryStepAfterResetCompletes : State.reset.resetSeen = true := rfl

theorem witness_TheBlockNeverActsOnAFlag :
    ∃ s s' : State, s ≠ s' ∧ s.resetSeen = true ∧ SameButFlags s s' :=
  ⟨State.reset, State.reset.raise .ovr, by decide, rfl, { Status.reset with ovr := true }, rfl, rfl, rfl, rfl⟩

theorem witness_IdleAccumulatorFieldsInfluenceNothingElse :
    ∃ s s' : State, s ≠ s' ∧ s.resetSeen = true ∧ s.status.busy = false ∧ SameButAccumulator s s' :=
  ⟨State.reset, { State.reset with acc := 1, w := 2 }, by decide, rfl, rfl, 1, 2, rfl⟩

theorem witness_StepRunsTheDecodedInstruction :
    ∃ (s : State) (tr : Transaction) (rest : List Event) (i : Instr), s.resetSeen = true ∧ s.events = .host tr :: rest
      ∧ tr = (encode i).transaction :=
  ⟨withEvents State.reset [.host (asmCommand (.hexdig 0x33)), .engine], _, _, .hexdig 0x33, rfl, rfl, rfl⟩

theorem witness_ResetGivesEveryResetValue :
    ∃ (s : State) (rest : List Event), s.events = .reset :: rest ∧ s.status.busy = true :=
  ⟨withEvents (afterSteps .single 5 0) [.reset, .engine], _, rfl, rfl⟩

theorem witness_AfterResetEverySlotButIdReadsZero : ∀ a ∈ [slotCMD, slotID, slotHEXSR, slotTRACE 1, slotTRACE 52],
    isUnmapped a = false := by
  decide

/-- Each of the three events before the first reset. -/
theorem witness_NothingRunsBeforeTheFirstReset : ∀ e ∈ [Event.host (asmRd slotID), .engine, .reset],
    ∃ (s : State) (rest : List Event), s.resetSeen = false ∧ s.events = e :: rest :=
  fun e _ => ⟨{ State.reset with resetSeen := false, events := [e] }, [], rfl, rfl⟩

/-- A HOST transaction while busy, the last ENGINE step, and a reset. -/
theorem witness_EveryStepKeepsTheInvariant :
    ∀ e ∈ [Event.host (asmCommand .decd), .engine, .reset], ∃ s t : State, s.events = [e] ∧ BlockInv s ∧ step s = .next t := by
  intro e he
  refine ⟨withEvents (afterSteps .single 0x40490FDB 22) [e], ?_⟩
  obtain ⟨t, ht⟩ := completes_next (r := step (withEvents (afterSteps .single 0x40490FDB 22) [e]))
    (by revert he e; decide +kernel)
  exact ⟨t, rfl, inv_withEvents inv_last _, ht⟩

/-- The state after a reset and one reached from it. -/
theorem witness_ReachableStatesMeetTheInvariant :
    Reachable (withEvents State.reset [.host (asmRd slotID)])
      ∧ Reachable { State.reset with rdata := 0x0000000042464301 } :=
  ⟨.start _, .next _ _ (.start [.host (asmRd slotID)]) rfl⟩

theorem witness_PollingEnds : ∃ s : State, BlockInv s ∧ s.resetSeen = true ∧ s.status.busy = true ∧ noReset s.events :=
  ⟨withEvents (afterSteps .single 0x40490FDB 0) [.host (asmRd slotSTATUS), .host (asmRd slotSTATUS)],
    inv_withEvents inv_accepted _, rfl, rfl, by unfold noReset; decide⟩

/-- WAITIDLE on a busy block and on an idle one, in each of which a read shows BUSY = 0; DECSW and DECDW whose last read
shows it. -/
theorem witness_PollingPseudoInstructionsRun :
    (∃ (s u : State) (evs : List Event), s.resetSeen = true ∧ noReset evs ∧ hostTransactions evs = asmWaitidle 2
        ∧ s.status.busy = true ∧ steps evs.length { s with events := evs } = .next u ∧ u.rdata.getLsbD 0 = false)
      ∧ (∃ (s u : State) (evs : List Event), s.resetSeen = true ∧ noReset evs ∧ hostTransactions evs = asmWaitidle 1
        ∧ s.status.busy = false ∧ steps evs.length { s with events := evs } = .next u ∧ u.rdata.getLsbD 0 = false)
      ∧ ∀ f : Format, ∃ (s u : State) (evs : List Event), s.resetSeen = true ∧ noReset evs
        ∧ ((f = .single ∧ hostTransactions evs = asmDecsw 2) ∨ (f = .double ∧ hostTransactions evs = asmDecdw 2))
        ∧ s.status.busy = false ∧ steps evs.length { s with events := evs } = .next u ∧ u.rdata.getLsbD 0 = false := by
  have read {r : Result} (h : gives r (fun t => !t.rdata.getLsbD 0) = true) : ∃ u, r = .next u ∧ u.rdata.getLsbD 0 = false := by
    cases r with
    | next t => exact ⟨t, rfl, by simpa [gives] using h⟩
    | fault e => cases h
    | refused e => cases h
  obtain ⟨u, hu, ru⟩ := read (r := steps 3 { afterSteps .single 5 22 with events :=
    [.host (asmRd slotSTATUS), .engine, .host (asmRd slotSTATUS)] }) (by decide +kernel)
  obtain ⟨v, hv, rv⟩ := read (r := steps 1 { State.reset with events := [.host (asmRd slotSTATUS)] }) (by decide +kernel)
  refine ⟨⟨afterSteps .single 5 22, u, [.host (asmRd slotSTATUS), .engine, .host (asmRd slotSTATUS)], by decide +kernel,
      by unfold noReset; decide, rfl, by decide +kernel, hu, ru⟩,
    ⟨State.reset, v, [.host (asmRd slotSTATUS)], rfl, by unfold noReset; decide, rfl, rfl, hv, rv⟩, fun f => ?_⟩
  let evs : List Event := .engine :: .host (asmCommand (decCommand f)) :: .host (asmRd slotSTATUS)
    :: (List.replicate (ntot f) .engine ++ [.host (asmRd slotSTATUS)])
  obtain ⟨w, hw, rw⟩ := read (r := steps evs.length { idle 5 with events := evs }) (by cases f <;> decide +kernel)
  exact ⟨idle 5, w, evs, rfl, by unfold noReset; cases f <;> decide,
    by cases f; exacts [.inl ⟨rfl, by decide⟩, .inr ⟨rfl, by decide⟩], rfl, hw, rw⟩

end Sys2Proof.Tests
end

section
/-! SUPPORT. Proofs of the scope rules: the bits of STATUS under `raise` (00_scope.md R11), the fields and the value of
an `enc64` pattern (R9, R12), and the hex digit alphabet (R10). -/

namespace Sys2Proof.Machine

/-! ### The bits of STATUS -/

/-- STATUS[11:0] as a list, bit 0 first (10_state.md R17). -/
def statusBits (st : Status) : List Bool :=
  [st.busy, st.done, decide (st.fmt = .double), false, false, false, false, false, st.ill, st.ovr, st.baddig, st.badreg]

theorem formatCode_eq_toNat_decide (f : Format) : formatCode f = (decide (f = .double)).toNat := by cases f <;> rfl

theorem toNat_ofBoolListLE_cons (b : Bool) (bs : List Bool) :
    (BitVec.ofBoolListLE (b :: bs)).toNat = (BitVec.ofBoolListLE bs).toNat * 2 + b.toNat := BitVec.toNat_concat ..

theorem statusNat_eq_toNat_statusBits (st : Status) :
    statusNat st = (BitVec.ofBoolListLE (statusBits st)).toNat := by
  have hnil : (BitVec.ofBoolListLE []).toNat = 0 := rfl
  simp only [statusNat, formatCode_eq_toNat_decide, statusBits, toNat_ofBoolListLE_cons, hnil, Bool.toNat_false]
  omega

/-- The bit i of the STATUS word is the entry i of the list, and 0 past its end. -/
theorem statusWord_getLsbD (st : Status) (i : Nat) : (statusWord st).getLsbD i = (statusBits st).getD i false := by
  have hlt : statusNat st < 2 ^ 64 := by
    rw [statusNat_eq_toNat_statusBits]
    exact (BitVec.ofBoolListLE (statusBits st)).isLt.trans (Nat.pow_lt_pow_right (by decide) (by simp [statusBits]))
  rw [statusWord, BitVec.getLsbD, BitVec.toNat_ofNat, Nat.mod_eq_of_lt hlt, statusNat_eq_toNat_statusBits,
    BitVec.testBit_toNat, BitVec.getLsbD_ofBoolListLE]

@[simp] theorem statusBits_setFlag (st : Status) (f : ErrorFlag) :
    statusBits (setFlag st f) = (statusBits st).set (errorCode f) true := by cases f <;> rfl

theorem errorCode_lt_length_statusBits (f : ErrorFlag) (st : Status) : errorCode f < (statusBits st).length := by
  cases f <;> simp [errorCode, statusBits]

theorem statusWord_setFlag_getLsbD (st : Status) (f : ErrorFlag) (i : Nat) :
    (statusWord (setFlag st f)).getLsbD i = (decide (i = errorCode f) || (statusWord st).getLsbD i) := by
  rw [statusWord_getLsbD, statusWord_getLsbD, statusBits_setFlag]
  by_cases h : i = errorCode f
  · subst h
    simp [errorCode_lt_length_statusBits]
  · simp [h, Ne.symm h]

/-- Settles O11: on the bits of STATUS, setting a flag is setting one entry of a list. -/
theorem raisingAnErrorSetsOnlyItsBit : Obligations.RaisingAnErrorSetsOnlyItsBit := by
  intro s f
  exact ⟨statusWord_setFlag_getLsbD s.status f, rfl⟩

/-! ### The pattern `enc64` gives -/

/-- With p the place of the top bit of n and m what stands below it, the exponent field is 971 + p and the fraction
field is m moved up to bit 51. -/
theorem enc64_toNat_of_eq_two_pow_add (n : BitVec 53) (p m : Nat) (hp : p ≤ 52) (hm : m < 2 ^ p) (hn : n.toNat = 2 ^ p + m) :
    (enc64 n).toNat = (971 + p) * 2 ^ 52 + m * 2 ^ (52 - p) := by
  have hpos : 0 < 2 ^ p := by positivity
  have hlog : n.toNat.log2 = p := by
    rw [Nat.log2_eq_iff (by omega), pow_succ]
    omega
  have htop : 2 ^ p * 2 ^ (52 - p) = 2 ^ 52 := by rw [← pow_add, Nat.add_sub_cancel' hp]
  obtain ⟨-, -, -, henc⟩ := enc64_toNat n (by omega)
  rw [henc, hlog, hn, add_mul (2 ^ p), htop, Nat.add_sub_cancel_left]

theorem enc64_one_add (f : Nat) (hf : f < 2 ^ 52) :
    enc64 (BitVec.ofNat 53 (2 ^ 52 + f)) = 0x3FF0000000000000 ||| BitVec.ofNat 64 f := by
  have hn : (BitVec.ofNat 53 (2 ^ 52 + f)).toNat = 2 ^ 52 + f := by
    rw [BitVec.toNat_ofNat, Nat.mod_eq_of_lt (by omega)]
  apply BitVec.eq_of_toNat_eq
  rw [enc64_toNat_of_eq_two_pow_add _ 52 f le_rfl hf hn, BitVec.toNat_or, BitVec.toNat_ofNat f,
    Nat.mod_eq_of_lt (hf.trans (by decide))]
  calc (971 + 52) * 2 ^ 52 + f * 2 ^ (52 - 52) = 0x3FF <<< 52 + f := by omega
    _ = 0x3FF <<< 52 ||| f := Nat.shiftLeft_add_eq_or_of_lt hf 0x3FF

theorem enc64_two_pow_neg (k : Nat) (hk : k ≤ 52) :
    enc64 (BitVec.ofNat 53 (2 ^ (52 - k))) = BitVec.ofNat 64 (1023 - k) <<< 52 := by
  have hn : (BitVec.ofNat 53 (2 ^ (52 - k))).toNat = 2 ^ (52 - k) + 0 :=
    (BitVec.toNat_ofNat ..).trans (Nat.mod_eq_of_lt (Nat.pow_lt_pow_right (by decide) (by omega)))
  apply BitVec.eq_of_toNat_eq
  rw [enc64_toNat_of_eq_two_pow_add _ (52 - k) 0 (by omega) (by positivity) hn, BitVec.toNat_shiftLeft, BitVec.toNat_ofNat,
    Nat.shiftLeft_eq]
  omega

/-- Settles O23: the two forms of R9 are the top bit at 52 with F below it, and the top bit at 52 - k with 0 below it. -/
theorem encodesAccumulatorValuesAsBinary64 : Obligations.EncodesAccumulatorValuesAsBinary64 :=
  ⟨enc64_one_add, enc64_two_pow_neg⟩

/-! ### The value of the pattern -/

/-- A binary64 pattern with sign 0, exponent field e and fraction field m. -/
theorem dec64_of_fields (p : Word) (e m : Nat) (he : e < 2 ^ 11) (hm : m < 2 ^ 52) (hp : p.toNat = e * 2 ^ 52 + m) :
    dec64 p = 2 ^ ((e : ℤ) - 1023) * (1 + (m : ℚ) / 2 ^ 52) := by
  have hsign : p.toNat / 2 ^ signPos .double % 2 = 0 := by simp only [signPos]; omega
  have hexp : patternExponent .double p = e := by simp only [patternExponent, ntot, expWidth]; omega
  have hfrac : p.toNat % 2 ^ ntot .double = m := by simp only [ntot]; omega
  rw [dec64, patternValue, hsign, hexp, hfrac, pow_zero, one_mul, bias, ntot]

/-- Settles O24: the exponent field scales by 2^(p - 52), and the significand is n scaled by 2^(52 - p). -/
theorem accumulatorPatternsAreExact : Obligations.AccumulatorPatternsAreExact := by
  intro n hn
  obtain ⟨hp, hlow, hhigh, henc⟩ := enc64_toNat n hn
  generalize n.toNat.log2 = p at hp hlow hhigh henc
  have hscale : (2 : ℚ) ^ (((971 + p : Nat) : ℤ) - 1023) * 2 ^ (52 - p) = 1 := by
    rw [← zpow_natCast, ← zpow_add₀ two_ne_zero, show ((971 + p : Nat) : ℤ) - 1023 + (52 - p : Nat) = 0 by omega, zpow_zero]
  have hsig : 1 + ((n.toNat * 2 ^ (52 - p) - 2 ^ 52 : Nat) : ℚ) / 2 ^ 52 = 2 ^ (52 - p) * fixedValue n := by
    rw [Nat.cast_sub hlow, fixedValue]
    push_cast
    ring
  rw [dec64_of_fields _ _ _ (by omega) (by omega) henc, hsig, ← mul_assoc, hscale, one_mul]

/-! ### Hex digits -/

theorem hexval_decimal (c : BitVec 8) (h : 0x30 ≤ c.toNat ∧ c.toNat ≤ 0x39) :
    ∃ d, hexval c = some d ∧ d.toNat = c.toNat - 0x30 := by
  refine ⟨_, if_pos h, ?_⟩
  rw [BitVec.toNat_ofNat]
  omega

theorem hexval_upper (c : BitVec 8) (h : 0x41 ≤ c.toNat ∧ c.toNat ≤ 0x46) :
    ∃ d, hexval c = some d ∧ d.toNat = c.toNat - 0x37 := by
  refine ⟨_, (if_neg (by omega)).trans (if_pos h), ?_⟩
  rw [BitVec.toNat_ofNat]
  omega

theorem hexval_lower (c : BitVec 8) (h : 0x61 ≤ c.toNat ∧ c.toNat ≤ 0x66) :
    ∃ d, hexval c = some d ∧ d.toNat = c.toNat - 0x57 := by
  refine ⟨_, (if_neg (by omega)).trans ((if_neg (by omega)).trans (if_pos h)), ?_⟩
  rw [BitVec.toNat_ofNat]
  omega

theorem hexval_other (c : BitVec 8) (hd : ¬(0x30 ≤ c.toNat ∧ c.toNat ≤ 0x39)) (hu : ¬(0x41 ≤ c.toNat ∧ c.toNat ≤ 0x46))
    (hl : ¬(0x61 ≤ c.toNat ∧ c.toNat ≤ 0x66)) : hexval c = none :=
  (if_neg hd).trans ((if_neg hu).trans (if_neg hl))

/-- Settles O34, one lemma per range of the alphabet. -/
theorem hexDigitCodes : Obligations.HexDigitCodes := fun c =>
  ⟨hexval_decimal c, hexval_upper c, hexval_lower c, hexval_other c⟩

end Sys2Proof.Machine
end

section
/-! SUPPORT. Proofs of the STATUS rules of 10_state.md: the bits of its word (R17), and which events write it (R36). -/

namespace Sys2Proof.Machine

/-! ### The word of STATUS -/

/-- Settles O10: the entries of `statusBits`, one at a time, and nothing from entry 12 on. -/
theorem statusReadsFieldsAtTheirBits : Obligations.StatusReadsFieldsAtTheirBits := by
  intro st i
  rw [statusWord_getLsbD]
  obtain hi | hi := lt_or_ge i 12
  · interval_cases i <;> rfl
  · rw [List.getD_eq_default (hn := by simpa [statusBits] using hi)]
    iterate 7 rw [if_neg (by omega)]

/-! ### What one step does to STATUS -/

theorem hexdig_data_toNat (c : BitVec 8) : (Command.data (.hexdig c)).toNat = 256 * c.toNat + 0x11 := by
  have hc := c.isLt
  have hlow : (0x00000011 : Word).toNat = 0x11 := rfl
  rw [Command.data, BitVec.toNat_or, BitVec.toNat_shiftLeft, BitVec.toNat_setWidth, hlow, Nat.shiftLeft_eq,
    Nat.mod_eq_of_lt (a := c.toNat) (by omega), Nat.mod_eq_of_lt (by omega), ← Nat.shiftLeft_eq,
    ← Nat.shiftLeft_add_eq_or_of_lt (by omega), Nat.shiftLeft_eq, mul_comm]

/-- The data of a legal command write is the command's word (30_encoding.md R58). -/
theorem eq_data_of_decodeCommand {d : Word} {c : Command} (h : decodeCommand d = .ok c) : d = c.data := by
  obtain ⟨-, -, -, himm⟩ := commandData_fields d
  rw [decodeCommand_toNat] at h
  simp only [withoutImmediate_toNat, himm] at h
  apply BitVec.eq_of_toNat_eq
  split_ifs at h <;> cases h
  case _ => show d.toNat = 0x00; omega
  case _ => show d.toNat = 0x01; omega
  case _ => show d.toNat = 0x02; omega
  case _ => show d.toNat = 0x10; omega
  case _ => rw [hexdig_data_toNat]; omega
  case _ => show d.toNat = 0x12; omega

/-- What sets an error flag (60_exceptions.md R112): the next event, with what makes it the flag's own cause. -/
def FlagCause (s : State) : ErrorFlag → Prop
  | .ill => ∃ d rest, s.events = .host (asmWr slotCMD d) :: rest ∧ ∃ e, decodeCommand d = .error e
  | .ovr => s.status.busy = true
      ∧ ∃ rest, s.events = .host (asmCommand .decs) :: rest ∨ s.events = .host (asmCommand .decd) :: rest
  | .baddig => ∃ c rest, s.events = .host (asmCommand (.hexdig c)) :: rest ∧ hexval c = none
  | .badreg => ∃ tr rest, s.events = .host tr :: rest
      ∧ ((tr.we = false ∧ isUnmapped tr.a = true) ∨ (tr.we = true ∧ 0x03 ≤ tr.a.toNat))

/-- The next event is the DECS or DECD of format f, and it is accepted (41_decompose.md R76). -/
def Accepts (s : State) (f : Format) : Prop :=
  s.status.busy = false ∧ ∃ rest, s.events = .host (asmCommand (decCommand f)) :: rest

/-- The next event is the last ENGINE step of a decomposition (41_decompose.md R83). -/
def IsLastStep (s : State) : Prop :=
  s.status.busy = true ∧ s.kcnt.toNat + 1 = ntot s.status.fmt ∧ (s.events = [] ∨ ∃ rest, s.events = .engine :: rest)

/-- What one step from s can leave in STATUS, with the event that does it (10_state.md R36). -/
inductive StatusEffect (s : State) : Status → Prop where
  | reset (rest : List Event) (h : s.events = .reset :: rest) : StatusEffect s Status.reset
  | same : StatusEffect s s.status
  | raised (e : ErrorFlag) (h : FlagCause s e) : StatusEffect s (setFlag s.status e)
  | cleared (d : Word) (rest : List Event) (h : s.events = .host (asmWr slotSTATUS d) :: rest) :
      StatusEffect s (clearFlags s.status d)
  | accepted (f : Format) (h : Accepts s f) : StatusEffect s (statusAccept s.status f)
  | completed (h : IsLastStep s) : StatusEffect s (statusComplete s.status)

theorem host_statusEffect {s t : State} {tr : Transaction} {rest : List Event} (he : s.events = .host tr :: rest)
    (h : HostEffect { s with events := rest } tr t) : StatusEffect s t.status := by
  cases h with
  | read a d =>
    show StatusEffect s (noteRead a { s with events := rest }).status
    rw [noteRead_status]
    split
    · exact .raised .badreg ⟨_, rest, he, .inl ⟨rfl, ‹_›⟩⟩
    · exact .same
  | illegal d e hd => exact .raised .ill ⟨d, rest, he, e, hd⟩
  | nop d hd => exact .same
  | dropped f d hd hb =>
    obtain rfl := eq_data_of_decodeCommand hd
    exact .raised .ovr ⟨hb, rest, by cases f; exacts [.inl he, .inr he]⟩
  | accepted f d hd hb =>
    obtain rfl := eq_data_of_decodeCommand hd
    exact .accepted f ⟨hb, rest, he⟩
  | hexclr d hd => exact .same
  | badDigit d c hd hc =>
    obtain rfl := eq_data_of_decodeCommand hd
    exact .raised .baddig ⟨c, rest, he, hc⟩
  | digit d c v hd hc => exact .same
  | hexend d hd => exact .same
  | clear d => exact .cleared d rest he
  | load d => exact .same
  | badWrite a d ha => exact .raised .badreg ⟨_, rest, he, .inr ⟨rfl, ha⟩⟩

theorem engineEvent_status (s : State) : (engineEvent s).status =
    if s.status.busy = true ∧ s.kcnt.toNat + 1 = ntot s.status.fmt then statusComplete s.status else s.status := by
  cases hb : s.status.busy
  · simp [engineEvent_of_idle s hb]
  · simp [engineEvent_of_busy s hb]

theorem engine_statusEffect {s : State} {rest : List Event}
    (he : s.events = .engine :: rest ∨ (s.events = [] ∧ rest = [])) :
    StatusEffect s (engineEvent { s with events := rest }).status := by
  rw [engineEvent_status]
  split
  · next hlast => exact .completed ⟨hlast.1, hlast.2, he.symm.imp And.left fun h => ⟨rest, h⟩⟩
  · exact .same

theorem step_statusEffect {s t : State} (h : step s = .next t) : StatusEffect s t.status := by
  obtain ⟨rest, he, rfl⟩ | ⟨-, tr, rest, he, heff⟩ | ⟨-, rest, he, rfl⟩ := step_cases s t h
  · exact .reset rest he
  · exact host_statusEffect he heff
  · exact engine_statusEffect he

section
variable {s : State} {st : Status} (h : StatusEffect s st)
include h

theorem StatusEffect.accepts_of_busy (hs : s.status.busy = false) (ht : st.busy = true) : ∃ f, Accepts s f := by
  cases h with
  | accepted f ha => exact ⟨f, ha⟩
  | reset | completed => cases ht
  | same | raised | cleared => simp [hs] at ht

theorem StatusEffect.reset_or_lastStep_of_not_busy (hs : s.status.busy = true) (ht : st.busy = false) :
    (∃ rest, s.events = .reset :: rest) ∨ IsLastStep s := by
  cases h with
  | reset rest he => exact .inl ⟨rest, he⟩
  | completed hl => exact .inr hl
  | accepted => cases ht
  | same | raised | cleared => simp [hs] at ht

theorem StatusEffect.reset_or_accepts_of_not_done (hs : s.status.done = true) (ht : st.done = false) :
    (∃ rest, s.events = .reset :: rest) ∨ ∃ f, Accepts s f := by
  cases h with
  | reset rest he => exact .inl ⟨rest, he⟩
  | accepted f ha => exact .inr ⟨f, ha⟩
  | completed => cases ht
  | same | raised | cleared => simp [hs] at ht

theorem StatusEffect.lastStep_of_done (hs : s.status.done = false) (ht : st.done = true) : IsLastStep s := by
  cases h with
  | completed hl => exact hl
  | reset | accepted => cases ht
  | same | raised | cleared => simp [hs] at ht

theorem StatusEffect.reset_or_accepts_of_fmt (hf : st.fmt ≠ s.status.fmt) :
    ((∃ rest, s.events = .reset :: rest) ∧ st.fmt = .single) ∨ Accepts s st.fmt := by
  cases h with
  | reset rest he => exact .inl ⟨⟨rest, he⟩, rfl⟩
  | accepted f ha => exact .inr ha
  | same | raised | cleared | completed => simp at hf

theorem StatusEffect.flagCause_of_flagSet (e : ErrorFlag) (hs : flagSet s.status e = false) (ht : flagSet st e = true) :
    FlagCause s e := by
  cases h with
  | raised e' hc =>
    obtain rfl : e = e' := by simpa [hs] using ht
    exact hc
  | reset => cases e <;> cases ht
  | same | cleared | accepted | completed => simp [hs] at ht

theorem StatusEffect.reset_or_write_of_not_flagSet (e : ErrorFlag) (hs : flagSet s.status e = true)
    (ht : flagSet st e = false) :
    (∃ rest, s.events = .reset :: rest)
      ∨ ∃ d rest, s.events = .host (asmWr slotSTATUS d) :: rest ∧ d.getLsbD (errorCode e) = true := by
  cases h with
  | reset rest he => exact .inl ⟨rest, he⟩
  | cleared d rest he => exact .inr ⟨d, rest, he, by simpa [hs] using ht⟩
  | same | raised | accepted | completed => simp [hs] at ht

end

/-- Settles O43: the six effects a step can have on STATUS, read for each field. -/
theorem onlyTheseEventsWriteStatus : Obligations.OnlyTheseEventsWriteStatus := by
  intro s t h
  have heff := step_statusEffect h
  exact ⟨heff.accepts_of_busy, heff.reset_or_lastStep_of_not_busy, heff.reset_or_accepts_of_not_done,
    heff.lastStep_of_done, heff.reset_or_accepts_of_fmt, heff.flagCause_of_flagSet .ill, heff.flagCause_of_flagSet .ovr,
    heff.flagCause_of_flagSet .baddig, heff.flagCause_of_flagSet .badreg,
    fun f _ _ h' => (step_statusEffect h').reset_or_write_of_not_flagSet f⟩

end Sys2Proof.Machine
end

section
/-! SUPPORT. Proofs of the reset rules (10_state.md R34; 70_reset_and_hazards.md R125), and that the fields ACC and w show
nowhere while BUSY = 0 (R31). -/

namespace Sys2Proof.Machine

/-! ### The step for each next event -/

section
variable {s : State}

theorem step_of_reset {s : State} {rest : List Event} (h : s.events = .reset :: rest) :
    step s = .next { State.reset with events := rest } := by
  rw [step, nextEvent_cons s _ rest h]
  rfl

theorem step_of_host {tr : Transaction} {rest : List Event} (hr : s.resetSeen = true) (h : s.events = .host tr :: rest) :
    step s = exec (decodeBus tr) { s with events := rest } := by
  rw [step, nextEvent_cons s _ rest h]
  exact if_pos hr

theorem step_of_engine {rest : List Event} (hr : s.resetSeen = true) (h : s.events = .engine :: rest) :
    step s = .next (engineEvent { s with events := rest }) := by
  rw [step, nextEvent_cons s _ rest h]
  exact if_pos hr

theorem step_of_nil (hr : s.resetSeen = true) (h : s.events = []) : step s = .next (engineEvent s) := by
  rw [step, nextEvent_nil s h]
  exact if_pos hr

end

/-! ### Reset -/

theorem flagSet_reset (f : ErrorFlag) : flagSet Status.reset f = false := by cases f <;> rfl

/-- Settles O48: the step answers `State.reset`, with the events still to come. -/
theorem resetGivesEveryResetValue : Obligations.ResetGivesEveryResetValue := by
  intro s rest h
  refine ⟨_, step_of_reset h, rfl, rfl, rfl, flagSet_reset, rfl, rfl, rfl, rfl, rfl, rfl, rfl, rfl, rfl, fun k => ?_,
    rfl, rfl, rfl, rfl, rfl⟩
  exact Vector.getElem_replicate ..

theorem readSlot_reset (a : Slot) : readSlot State.reset a = if a = slotID then idConstant else 0 := by
  by_cases hid : a = slotID
  · subst hid
    rfl
  · have hne : a.toNat ≠ 0x0B := fun h => hid (BitVec.eq_of_toNat_eq h)
    have hstatus : statusWord Status.reset = 0 := rfl
    have hloader : hexstWord 0#4 0#5 = 0#64 := rfl
    simp [readSlot, State.reset, hne, hid, hstatus, hloader]

theorem noteRead_of_mapped (s : State) {a : Slot} (h : isUnmapped a = false) : noteRead a s = s := by
  rw [noteRead, h]
  rfl

/-- Settles O49: by what each slot of `State.reset` reads. -/
theorem afterResetEverySlotButIdReadsZero : Obligations.AfterResetEverySlotButIdReadsZero := by
  intro a ha
  rw [exec, execRd, noteRead_of_mapped _ ha, readSlot_reset]
  rfl

/-! ### The fields ACC and w while BUSY = 0 -/

/-- The state with other values in ACC and w. -/
def State.setAccumulator (s : State) (acc w : BitVec 53) : State := { s with acc := acc, w := w }

theorem sameButAccumulator_setAccumulator (s : State) (acc w : BitVec 53) : SameButAccumulator s (s.setAccumulator acc w) :=
  ⟨acc, w, rfl⟩

theorem readSlot_setAccumulator (s : State) (acc w : BitVec 53) (a : Slot) :
    readSlot (s.setAccumulator acc w) a = readSlot s a := rfl

/-- Both outcomes are next states that differ at most in ACC and w, and not at all where BUSY = 1. -/
def SameButIdleAccumulator (r r' : Result) : Prop :=
  ∃ t t', r = .next t ∧ r' = .next t' ∧ SameButAccumulator t t' ∧ (t.status.busy = true → t = t')

theorem sameButIdleAccumulator_of_idle (t : State) (h : t.status.busy = false) (acc w : BitVec 53) :
    SameButIdleAccumulator (.next t) (.next (t.setAccumulator acc w)) :=
  ⟨t, _, rfl, rfl, sameButAccumulator_setAccumulator t acc w, by simp [h]⟩

theorem sameButIdleAccumulator_refl (t : State) : SameButIdleAccumulator (.next t) (.next t) :=
  ⟨t, t, rfl, rfl, sameButAccumulator_setAccumulator t t.acc t.w, fun _ => rfl⟩

section
variable {s : State} (h : s.status.busy = false) (acc w : BitVec 53)
include h

theorem raise_sameButIdleAccumulator (e : ErrorFlag) :
    SameButIdleAccumulator (.next (s.raise e)) (.next ((s.setAccumulator acc w).raise e)) :=
  sameButIdleAccumulator_of_idle (s.raise e) ((setFlag_busy ..).trans h) acc w

/-- Acceptance overwrites the two fields. -/
theorem decStart_sameButIdleAccumulator (f : Format) :
    SameButIdleAccumulator (.next (decStart f s)) (.next (decStart f (s.setAccumulator acc w))) := by
  rw [decStart_of_idle f s h, decStart_of_idle f (s.setAccumulator acc w) h]
  exact sameButIdleAccumulator_refl _

theorem command_sameButIdleAccumulator (c : Command) :
    SameButIdleAccumulator (exec c.toInstr s) (exec c.toInstr (s.setAccumulator acc w)) := by
  cases c with
  | nop => exact sameButIdleAccumulator_of_idle s h acc w
  | decs => exact decStart_sameButIdleAccumulator h acc w .single
  | decd => exact decStart_sameButIdleAccumulator h acc w .double
  | hexclr => exact sameButIdleAccumulator_of_idle { s with hn := 0, hd1 := 0, hs := 0 } h acc w
  | hexdig c =>
    show SameButIdleAccumulator (execHexdig c _) (execHexdig c _)
    unfold execHexdig
    cases hexval c with
    | none => exact raise_sameButIdleAccumulator h acc w .baddig
    | some d => exact sameButIdleAccumulator_of_idle (pushDigit d s) h acc w
  | hexend => exact sameButIdleAccumulator_of_idle { s with inReg := packHex s.hn s.hd1 s.hs } h acc w

theorem runCommand_sameButIdleAccumulator (d : Word) :
    SameButIdleAccumulator (runCommand d s) (runCommand d (s.setAccumulator acc w)) := by
  cases hd : decodeCommand d with
  | error e =>
    rw [runCommand_error d _ e hd, runCommand_error d _ e hd]
    exact raise_sameButIdleAccumulator h acc w .ill
  | ok c =>
    rw [runCommand_ok d _ c hd, runCommand_ok d _ c hd]
    exact command_sameButIdleAccumulator h acc w c

theorem execWr_sameButIdleAccumulator (a : Slot) (d : Word) :
    SameButIdleAccumulator (execWr a d s) (execWr a d (s.setAccumulator acc w)) := by
  unfold execWr
  split_ifs
  · exact runCommand_sameButIdleAccumulator h acc w d
  · exact sameButIdleAccumulator_of_idle (s.clearFlags d) h acc w
  · exact sameButIdleAccumulator_of_idle { s with inReg := d } h acc w
  · exact raise_sameButIdleAccumulator h acc w .badreg

theorem execRd_sameButIdleAccumulator (a : Slot) :
    SameButIdleAccumulator (execRd a s) (execRd a (s.setAccumulator acc w)) := by
  unfold execRd noteRead
  rw [readSlot_setAccumulator]
  split_ifs
  · exact sameButIdleAccumulator_of_idle { s.raise .badreg with rdata := readSlot s a } h acc w
  · exact sameButIdleAccumulator_of_idle { s with rdata := readSlot s a } h acc w

theorem transaction_sameButIdleAccumulator (tr : Transaction) :
    SameButIdleAccumulator (exec (decodeBus tr) s) (exec (decodeBus tr) (s.setAccumulator acc w)) := by
  unfold decodeBus
  split
  · exact execWr_sameButIdleAccumulator h acc w tr.a tr.d
  · exact execRd_sameButIdleAccumulator h acc w tr.a

theorem engineEvent_sameButIdleAccumulator :
    SameButIdleAccumulator (.next (engineEvent s)) (.next (engineEvent (s.setAccumulator acc w))) := by
  rw [engineEvent_of_idle s h, engineEvent_of_idle (s.setAccumulator acc w) h]
  exact sameButIdleAccumulator_of_idle s h acc w

end

/-- Settles O46: by the next event. -/
theorem idleAccumulatorFieldsInfluenceNothingElse : Obligations.IdleAccumulatorFieldsInfluenceNothingElse := by
  rintro s _ hr h ⟨acc, w, rfl⟩
  show SameButIdleAccumulator (step s) (step (s.setAccumulator acc w))
  cases he : s.events with
  | nil =>
    rw [step_of_nil hr he, step_of_nil (s := s.setAccumulator acc w) hr he]
    exact engineEvent_sameButIdleAccumulator h acc w
  | cons e rest =>
    cases e with
    | reset =>
      rw [step_of_reset he, step_of_reset (s := s.setAccumulator acc w) he]
      exact sameButIdleAccumulator_refl _
    | host tr =>
      rw [step_of_host hr he, step_of_host (s := s.setAccumulator acc w) hr he]
      exact transaction_sameButIdleAccumulator (s := { s with events := rest }) h acc w tr
    | engine =>
      rw [step_of_engine hr he, step_of_engine (s := s.setAccumulator acc w) hr he]
      exact engineEvent_sameButIdleAccumulator (s := { s with events := rest }) h acc w

end Sys2Proof.Machine
end

section
/-! SUPPORT. Proof that every step keeps the invariant of 10_state.md R37: events that leave the decomposition alone, a
digit, an acceptance, and the ENGINE step, whose sums are kept in the fixed-point form of R31. -/

namespace Sys2Proof.Machine

/-! ### Reset, and events that leave the decomposition alone -/

theorem loaderConsistent_clear (s : State) : LoaderConsistent { s with hn := 0, hd1 := 0, hs := 0 } :=
  ⟨Nat.zero_le _, fun _ => ⟨rfl, rfl⟩, nofun⟩

theorem blockInv_reset (events : List Event) : BlockInv { State.reset with events := events } where
  busy_counts := nofun
  done_counts := nofun
  idle_reset _ _ := ⟨rfl, rfl, rfl, rfl, rfl, rfl, rfl, rfl, rfl, rfl⟩
  fields := nofun
  sums := nofun
  trace_clear k _ _ := traceEntry_replicate k
  loader := loaderConsistent_clear State.reset

/-- Settles O51: no clause of the invariant is about the events to come. -/
theorem resetMeetsTheInvariant : Obligations.ResetMeetsTheInvariant := blockInv_reset

/-- The flags, IN and the model's own fields are not in the invariant. -/
theorem BlockInv.congr {s t : State} (h : BlockInv s) (hbusy : t.status.busy = s.status.busy)
    (hdone : t.status.done = s.status.done) (hfmt : t.status.fmt = s.status.fmt) (hres : SameResults s t)
    (hl : LoaderConsistent t) : BlockInv t := by
  obtain ⟨hsrc, hsign, hbexp, huexp, hmfield, hmant, hweight, hkcnt, htrace, hacc, hw⟩ := hres
  refine { busy_counts := ?_, done_counts := ?_, idle_reset := ?_, fields := ?_, sums := ?_, trace_clear := ?_, loader := hl }
  · rw [hbusy, hdone, hfmt, hkcnt]; exact h.busy_counts
  · rw [hbusy, hdone, hfmt, hkcnt]; exact h.done_counts
  · rw [hbusy, hdone, ResultsAtReset, hfmt, hsrc, hsign, hbexp, huexp, hmfield, hmant, hweight, hkcnt, htrace]
    exact h.idle_reset
  · rw [hbusy, hdone, FieldsOfSource, hfmt, hsrc, hsign, hbexp, huexp, hmfield]; exact h.fields
  · rw [hbusy, hdone, PartialSums, hfmt, hmfield, hmant, hweight, hkcnt, htrace, hacc, hw]; exact h.sums
  · rw [hkcnt, htrace]; exact h.trace_clear

theorem SameResults.refl (s : State) : SameResults s s := ⟨rfl, rfl, rfl, rfl, rfl, rfl, rfl, rfl, rfl, rfl, rfl⟩

theorem BlockInv.raise {s : State} (h : BlockInv s) (e : ErrorFlag) : BlockInv (s.raise e) :=
  h.congr (setFlag_busy ..) (setFlag_done ..) (setFlag_fmt ..) (.refl s) h.loader

/-! ### The loader -/

/-- Up to 16 digits HS is the whole string, so the new digit moves the first one up by a place. -/
theorem LoaderConsistent.pushDigit {s : State} (h : LoaderConsistent s) (d : BitVec 4) :
    LoaderConsistent (pushDigit d s) := by
  obtain ⟨hle, hzero, hsome⟩ := h
  have hd := d.isLt
  rw [LoaderConsistent, pushDigit_hn_toNat, pushDigit_hs_toNat, pushDigit_hd1]
  refine ⟨by omega, by omega, fun _ hn => ?_⟩
  rw [show min (s.hn.toNat + 1) 17 = s.hn.toNat + 1 by omega, Nat.add_sub_cancel]
  by_cases h0 : s.hn.toNat = 0
  · obtain ⟨-, hs⟩ := hzero h0
    have hs0 : s.hs.toNat = 0 := congrArg BitVec.toNat hs
    simp only [h0, hs0, if_true]
    omega
  · obtain ⟨hlt, hdiv⟩ := hsome (by omega) (by omega)
    have hpow : 16 ^ s.hn.toNat = 16 * 16 ^ (s.hn.toNat - 1) := (mul_pow_sub_one h0 16).symm
    have hbound : 16 ^ s.hn.toNat ≤ 16 ^ 15 := Nat.pow_le_pow_right (by decide) (by omega)
    rw [if_neg h0, Nat.mod_eq_of_lt (by omega), pow_succ]
    refine ⟨by omega, ?_⟩
    rw [hpow, ← Nat.div_div_eq_div_mul, show (16 * s.hs.toNat + d.toNat) / 16 = s.hs.toNat by omega, hdiv]

/-! ### The sums in fixed-point form

n is the number of steps, k of them are done, and m is the mantissa field. -/

/-- The mantissa bits added after k steps, as a fixed-point fraction. -/
def addedBits (m n k : Nat) : Nat := m / 2 ^ (n - k) * 2 ^ (52 - k)

theorem addedBits_lt {m n k : Nat} (hm : m < 2 ^ n) (hk : k ≤ n) (hn : n ≤ 52) : addedBits m n k < 2 ^ 52 := by
  have hdiv : m / 2 ^ (n - k) < 2 ^ k := by
    rw [Nat.div_lt_iff_lt_mul (by positivity), ← pow_add, Nat.add_sub_cancel' hk]
    exact hm
  calc addedBits m n k < 2 ^ k * 2 ^ (52 - k) := Nat.mul_lt_mul_of_pos_right hdiv (by positivity)
    _ = 2 ^ 52 := by rw [← pow_add, Nat.add_sub_cancel' (hk.trans hn)]

theorem addedBits_zero {m n : Nat} (hm : m < 2 ^ n) : addedBits m n 0 = 0 := by
  rw [addedBits, Nat.sub_zero, Nat.div_eq_of_lt hm, zero_mul]

/-- Step k + 1 tests bit n - (k + 1) and adds the halved weight for a 1. -/
theorem addedBits_succ {m n k : Nat} (hk : k < n) (hn : n ≤ 52) :
    addedBits m n (k + 1) = addedBits m n k + if m.testBit (n - (k + 1)) then 2 ^ (52 - (k + 1)) else 0 := by
  have hdiv : m / 2 ^ (n - k) = m / 2 ^ (n - (k + 1)) / 2 := by
    rw [Nat.div_div_eq_div_mul, ← pow_succ]; congr 2; omega
  have hpow : 2 ^ (52 - k) = 2 * 2 ^ (52 - (k + 1)) := by rw [← pow_succ']; congr 1; omega
  rw [addedBits, addedBits, hdiv, hpow, Nat.testBit_eq_decide_div_mod_eq]
  obtain ⟨r, hr | hr⟩ := Nat.even_or_odd' (m / 2 ^ (n - (k + 1)))
  · rw [hr, show 2 * r / 2 = r by omega, if_neg (by simp)]
    ring
  · rw [hr, show (2 * r + 1) / 2 = r by omega, if_pos (by simp)]
    ring

theorem partfrac_eq_addedBits {m n k : Nat} (hk : k ≤ 52) : partfrac m n k = (addedBits m n k : ℚ) / 2 ^ 52 := by
  have hpow : (2 : ℚ) ^ 52 = 2 ^ (52 - k) * 2 ^ k := by rw [← pow_add, Nat.sub_add_cancel hk]
  rw [partfrac, addedBits, hpow]
  push_cast
  field_simp

theorem fixedValue_acc_iff (a : BitVec 53) {m n k : Nat} (hk : k ≤ 52) :
    fixedValue a = 1 + partfrac m n k ↔ a.toNat = 2 ^ 52 + addedBits m n k := by
  rw [partfrac_eq_addedBits hk, fixedValue, div_eq_iff (by positivity), add_mul, one_mul,
    div_mul_cancel₀ _ (by positivity)]
  norm_cast

theorem fixedValue_w_iff (a : BitVec 53) {k : Nat} (hk : k ≤ 52) :
    fixedValue a = 1 / 2 ^ k ↔ a.toNat = 2 ^ (52 - k) := by
  have hpow : (2 : ℚ) ^ 52 = 2 ^ (52 - k) * 2 ^ k := by rw [← pow_add, Nat.sub_add_cancel hk]
  rw [fixedValue, div_eq_div_iff (by positivity) (by positivity), one_mul, hpow, mul_left_inj' (by positivity)]
  norm_cast

theorem cumulativePattern_eq_enc64 {a : BitVec 53} {m : BitVec 52} {n k : Nat} (hm : m.toNat < 2 ^ n) (hk : k ≤ n)
    (hn : n ≤ 52) (ha : a.toNat = 2 ^ 52 + addedBits m.toNat n k) : cumulativePattern m n k = enc64 a := by
  have ha' : a = BitVec.ofNat 53 (2 ^ 52 + addedBits m.toNat n k) := by rw [← ha, BitVec.ofNat_toNat, BitVec.setWidth_eq]
  rw [ha', enc64_one_add _ (addedBits_lt hm hk hn)]
  rfl

theorem weightPattern_eq_enc64 {a : BitVec 53} {k : Nat} (hk : k ≤ 52) (ha : a.toNat = 2 ^ (52 - k)) :
    weightPattern k = enc64 a := by
  have ha' : a = BitVec.ofNat 53 (2 ^ (52 - k)) := by rw [← ha, BitVec.ofNat_toNat, BitVec.setWidth_eq]
  rw [ha', enc64_two_pow_neg k hk, weightPattern, BitVec.ofNat_mul, BitVec.shiftLeft_eq_mul_twoPow]
  rfl

theorem ntot_le (f : Format) : ntot f ≤ 52 := by cases f <;> decide

theorem ntot_pos (f : Format) : 0 < ntot f := by cases f <;> decide

/-- R85 on the fixed-point registers. -/
theorem partialSums_iff {s : State} (hm : s.mfield.toNat < 2 ^ ntot s.status.fmt) (hk : s.kcnt.toNat ≤ ntot s.status.fmt) :
    PartialSums s ↔ s.mant = enc64 s.acc ∧ s.weight = enc64 s.w
      ∧ s.acc.toNat = 2 ^ 52 + addedBits s.mfield.toNat (ntot s.status.fmt) s.kcnt.toNat
      ∧ s.w.toNat = 2 ^ (52 - s.kcnt.toNat)
      ∧ ∀ j, 1 ≤ j → j ≤ s.kcnt.toNat →
          traceEntry s.trace j = cumulativePattern s.mfield (ntot s.status.fmt) j := by
  have hn := ntot_le s.status.fmt
  have hk52 := hk.trans hn
  simp only [PartialSums, fixedValue_acc_iff _ hk52, fixedValue_w_iff _ hk52]
  constructor
  · rintro ⟨hmant, hweight, hacc, hw, htrace⟩
    exact ⟨hmant.trans (cumulativePattern_eq_enc64 hm hk hn hacc), hweight.trans (weightPattern_eq_enc64 hk52 hw),
      hacc, hw, htrace⟩
  · rintro ⟨hmant, hweight, hacc, hw, htrace⟩
    exact ⟨hmant.trans (cumulativePattern_eq_enc64 hm hk hn hacc).symm,
      hweight.trans (weightPattern_eq_enc64 hk52 hw).symm, hacc, hw, htrace⟩

/-! ### Acceptance -/

theorem sliceMfield_lt (f : Format) (x : Word) : (sliceMfield f x).toNat < 2 ^ ntot f := by
  rw [sliceMfield_toNat]
  exact Nat.mod_lt _ (by positivity)

theorem FieldsOfSource.mfield_lt {s : State} (h : FieldsOfSource s) : s.mfield.toNat < 2 ^ ntot s.status.fmt := by
  obtain ⟨-, -, -, -, hmfield⟩ := h
  rw [hmfield]
  exact sliceMfield_lt ..

theorem fieldsOfSource_acceptDecomposition (f : Format) (s : State) : FieldsOfSource (acceptDecomposition f s) := by
  refine ⟨fun hf => ?_, rfl, rfl, rfl, rfl⟩
  obtain rfl : f = .single := hf
  rw [acceptDecomposition_src, latchSource_single_toNat]
  exact Nat.mod_lt _ (by decide)

theorem partialSums_acceptDecomposition (f : Format) (s : State) : PartialSums (acceptDecomposition f s) := by
  have hm := sliceMfield_lt f (latchSource f s.inReg)
  rw [partialSums_iff hm (Nat.zero_le _)]
  refine ⟨rfl, rfl, ?_, rfl, fun j h1 h0 => absurd (h1.trans h0) (by decide : ¬1 ≤ 0)⟩
  exact congrArg (2 ^ 52 + ·) (addedBits_zero hm).symm

theorem BlockInv.acceptDecomposition {s : State} (h : BlockInv s) (f : Format) :
    BlockInv (acceptDecomposition f s) where
  busy_counts _ := ⟨ntot_pos f, rfl⟩
  done_counts := nofun
  idle_reset := nofun
  fields _ := fieldsOfSource_acceptDecomposition f s
  sums _ := partialSums_acceptDecomposition f s
  trace_clear k _ _ := traceEntry_replicate k
  loader := h.loader

/-! ### The ENGINE step -/

theorem engineStep_fmt (s : State) : (engineStep s).status.fmt = s.status.fmt := by
  rw [engineStep_status]
  split <;> rfl

section
variable {s : State} (hk : s.kcnt.toNat < ntot s.status.fmt)
include hk

theorem engineStep_kcnt_toNat : (engineStep s).kcnt.toNat = s.kcnt.toNat + 1 := by
  have hn := ntot_le s.status.fmt
  rw [engineStep_kcnt, BitVec.toNat_ofNat, Nat.mod_eq_of_lt (by omega)]

theorem engineStep_w_toNat (hw : s.w.toNat = 2 ^ (52 - s.kcnt.toNat)) :
    (engineStep s).w.toNat = 2 ^ (52 - (s.kcnt.toNat + 1)) := by
  have hn := ntot_le s.status.fmt
  rw [engineStep_w, BitVec.toNat_ushiftRight, hw, Nat.shiftRight_eq_div_pow, Nat.pow_div (by omega) (by decide)]
  congr 1

theorem engineStep_acc_toNat (hm : s.mfield.toNat < 2 ^ ntot s.status.fmt) (hw : s.w.toNat = 2 ^ (52 - s.kcnt.toNat))
    (hacc : s.acc.toNat = 2 ^ 52 + addedBits s.mfield.toNat (ntot s.status.fmt) s.kcnt.toNat) :
    (engineStep s).acc.toNat = 2 ^ 52 + addedBits s.mfield.toNat (ntot s.status.fmt) (s.kcnt.toNat + 1) := by
  have hn := ntot_le s.status.fmt
  have hlt := addedBits_lt hm hk hn
  have hw' : (s.w >>> 1).toNat = _ := engineStep_w_toNat hk hw
  rw [engineStep_acc, BitVec.getLsbD]
  rw [addedBits_succ hk hn] at hlt ⊢
  split at hlt
  · next hbit => rw [if_pos hbit, if_pos hbit, BitVec.toNat_add, hacc, hw', add_assoc, Nat.mod_eq_of_lt (by omega)]
  · next hbit => rw [if_neg hbit, if_neg hbit, hacc, add_zero]

theorem PartialSums.engineStep (hm : s.mfield.toNat < 2 ^ ntot s.status.fmt) (h : PartialSums s) :
    PartialSums (engineStep s) := by
  have hn := ntot_le s.status.fmt
  have hfmt := engineStep_fmt s
  have hkcnt := engineStep_kcnt_toNat hk
  obtain ⟨-, -, hacc, hw, htrace⟩ := (partialSums_iff hm hk.le).1 h
  have hacc' := engineStep_acc_toNat hk hm hw hacc
  rw [partialSums_iff (by rwa [hfmt]) (by rw [hfmt, hkcnt]; exact hk), hfmt, hkcnt]
  refine ⟨rfl, rfl, hacc', engineStep_w_toNat hk hw, fun j h1 hj => ?_⟩
  rw [engineStep_trace, traceEntry_traceWrite]
  by_cases hjk : j = s.kcnt.toNat + 1
  · rw [if_pos ⟨hjk, by omega, by omega⟩, hjk]
    exact (cumulativePattern_eq_enc64 hm hk hn hacc').symm
  · rw [if_neg (by tauto)]
    exact htrace j h1 (by omega)

end

theorem BlockInv.engineStep {s : State} (h : BlockInv s) (hb : s.status.busy = true) : BlockInv (engineStep s) := by
  obtain ⟨hk, hd⟩ := h.busy_counts hb
  have hf := h.fields (.inl hb)
  have hkcnt := engineStep_kcnt_toNat hk
  have hst := engineStep_status s
  refine { busy_counts := ?_, done_counts := ?_, idle_reset := ?_, fields := fun _ => ?_,
           sums := fun _ => (h.sums (.inl hb)).engineStep hk hf.mfield_lt, trace_clear := fun j hj hj52 => ?_, loader := h.loader }
  · rw [hst, hkcnt]
    split
    · exact nofun
    · exact fun _ => ⟨by omega, hd⟩
  · rw [hst, hkcnt]
    split
    · next hlast => exact fun _ => ⟨rfl, hlast⟩
    · exact fun hd' => absurd hd' (by simp [hd])
  · rw [hst]
    split
    · exact nofun
    · exact fun hb' => absurd hb (by simp [hb'])
  · rwa [FieldsOfSource, engineStep_fmt]
  · rw [hkcnt] at hj
    rw [engineStep_trace, traceEntry_traceWrite, if_neg (by omega)]
    exact h.trace_clear j (by omega) hj52

/-! ### The step -/

theorem BlockInv.withEvents {s : State} (h : BlockInv s) (events : List Event) : BlockInv { s with events := events } :=
  h.congr rfl rfl rfl (.refl s) h.loader

theorem BlockInv.engineEvent {s : State} (h : BlockInv s) : BlockInv (engineEvent s) := by
  cases hb : s.status.busy with
  | false => rwa [engineEvent_of_idle s hb]
  | true => rw [engineEvent_of_busy s hb]; exact h.engineStep hb

theorem BlockInv.noteRead {s : State} (h : BlockInv s) (a : Slot) : BlockInv (noteRead a s) := by
  unfold Machine.noteRead
  split
  · exact h.raise _
  · exact h

theorem BlockInv.hostEffect {s t : State} {tr : Transaction} (h : BlockInv s) (heff : HostEffect s tr t) : BlockInv t := by
  cases heff with
  | read a d => exact (h.noteRead a).congr rfl rfl rfl (.refl _) (h.noteRead a).loader
  | illegal | dropped | badDigit | badWrite => exact h.raise _
  | nop => exact h
  | accepted f => exact h.acceptDecomposition f
  | hexclr => exact h.congr rfl rfl rfl (.refl s) (loaderConsistent_clear s)
  | digit _ _ v => exact h.congr rfl rfl rfl (.refl s) (h.loader.pushDigit v)
  | hexend | clear | load => exact h.congr rfl rfl rfl (.refl s) h.loader

/-- Settles O52: by the event the step takes. -/
theorem everyStepKeepsTheInvariant : Obligations.EveryStepKeepsTheInvariant := by
  intro s t h hstep
  obtain ⟨rest, -, rfl⟩ | ⟨-, tr, rest, -, heff⟩ | ⟨-, rest, -, rfl⟩ := step_cases s t hstep
  · exact blockInv_reset rest
  · exact (h.withEvents rest).hostEffect heff
  · exact (h.withEvents rest).engineEvent

/-- Settles O53: reset meets the invariant and every step keeps it. -/
theorem reachableStatesMeetTheInvariant : Obligations.ReachableStatesMeetTheInvariant := by
  intro s h
  induction h with
  | start events => exact blockInv_reset events
  | next s t _ hstep ih => exact everyStepKeepsTheInvariant s t ih hstep

end Sys2Proof.Machine
end

section
/-! SUPPORT. Proofs of the event rules of 20_memory.md: an ENGINE turn and the model's own fields (R45), the results of a
finished decomposition (R47), and the end of polling (R46). -/

namespace Sys2Proof.Machine

/-! ### Every step -/

/-- R111: from a state after the first reset every step completes. -/
theorem exists_step {s : State} (hr : s.resetSeen = true) : ∃ t, step s = .next t := by
  cases he : s.events with
  | nil => exact ⟨_, step_of_nil hr he⟩
  | cons e rest =>
    cases e with
    | reset => exact ⟨_, step_of_reset he⟩
    | engine => exact ⟨_, step_of_engine hr he⟩
    | host tr =>
      obtain ⟨t, ht, -⟩ := exec_decodeBus_effect tr { s with events := rest }
      exact ⟨t, (step_of_host hr he).trans ht⟩

theorem HostEffect.resetSeen_eq {s t : State} {tr : Transaction} (h : HostEffect s tr t) : t.resetSeen = s.resetSeen := by
  cases h with
  | read a => exact noteRead_resetSeen s a
  | _ => rfl

theorem HostEffect.events_eq {s t : State} {tr : Transaction} (h : HostEffect s tr t) : t.events = s.events := by
  cases h with
  | read a => exact noteRead_events s a
  | _ => rfl

section
variable {s t : State} (h : step s = .next t)
include h

theorem step_resetSeen : t.resetSeen = true := by
  obtain ⟨rest, -, rfl⟩ | ⟨hr, tr, rest, -, heff⟩ | ⟨hr, rest, -, rfl⟩ := step_cases s t h
  · rfl
  · exact heff.resetSeen_eq.trans hr
  · exact (engineEvent_resetSeen _).trans hr

theorem step_events : t.events = s.events.tail := by
  obtain ⟨rest, he, rfl⟩ | ⟨-, tr, rest, he, heff⟩ | ⟨-, rest, he | ⟨he, rfl⟩, rfl⟩ := step_cases s t h
  · rw [he, List.tail_cons]
  · rw [heff.events_eq, he, List.tail_cons]
  · rw [engineEvent_events, he, List.tail_cons]
  · rw [engineEvent_events, he, List.tail_nil]

theorem step_noReset (hn : noReset s.events) : noReset t.events := by
  rw [step_events h]
  exact fun hm => hn (List.mem_of_mem_tail hm)

theorem step_noDecomposition (hn : noDecomposition s.events) : noDecomposition t.events := by
  obtain ⟨hs, hd⟩ := hn
  rw [step_events h]
  exact ⟨fun hm => hs (List.mem_of_mem_tail hm), fun hm => hd (List.mem_of_mem_tail hm)⟩

theorem steps_succ_of_step (n : Nat) : steps (n + 1) s = steps n t := by rw [steps, h]

end

/-- Any number of steps after the first reset completes, with what every step keeps. -/
theorem steps_keep {P : State → Prop} (hstep : ∀ s t, P s → step s = .next t → P t) (n : Nat) {s : State}
    (hr : s.resetSeen = true) (hP : P s) : ∃ u, steps n s = .next u ∧ P u := by
  induction n generalizing s with
  | zero => exact ⟨s, rfl, hP⟩
  | succ n ih =>
    obtain ⟨t, ht⟩ := exists_step hr
    rw [steps_succ_of_step ht]
    exact ih (step_resetSeen ht) (hstep s t hP ht)

/-! ### The ENGINE's turn and the model's own fields -/

theorem step_of_no_event {s : State} (h : s.events = []) : step s = step { s with events := [.engine] } := by
  have hs : { s with events := [] } = s := by rw [← h]
  rw [step, step, nextEvent_nil s h, nextEvent_cons { s with events := [.engine] } .engine [] rfl]
  simp only [hs]

/-- Settles O26: the turn is `engineEvent` on the state without its event. -/
theorem engineTurnKeepsTheModelFields : Obligations.EngineTurnKeepsTheModelFields := by
  refine fun s t rest => ⟨fun he h => ?_, step_of_no_event⟩
  have hr : s.resetSeen = true := by
    by_contra hr
    rw [step, nextEvent_cons s _ rest he] at h
    simp [hr] at h
  obtain rfl := Host.Outcome.next.inj ((step_of_engine hr he).symm.trans h)
  exact ⟨engineEvent_rdata _, engineEvent_resetSeen _, engineEvent_events _⟩

/-! ### States with the same decomposition -/

/-- Nothing a decomposition writes differs: the results, and the bits of STATUS that are no flag. -/
structure SameDecomposition (s t : State) : Prop where
  results : SameResults s t
  busy : t.status.busy = s.status.busy
  done : t.status.done = s.status.done
  fmt : t.status.fmt = s.status.fmt

theorem SameResults.trans {s t u : State} (h : SameResults s t) (h' : SameResults t u) : SameResults s u := by
  unfold SameResults at h h' ⊢
  simp_all only [and_self]

theorem SameDecomposition.trans {s t u : State} (h : SameDecomposition s t) (h' : SameDecomposition t u) :
    SameDecomposition s u :=
  ⟨h.results.trans h'.results, h'.busy.trans h.busy, h'.done.trans h.done, h'.fmt.trans h.fmt⟩

theorem SameDecomposition.of_withEvents {s t : State} {events : List Event}
    (h : SameDecomposition { s with events := events } t) : SameDecomposition s t :=
  ⟨h.results, h.busy, h.done, h.fmt⟩

theorem sameDecomposition_raise (s : State) (e : ErrorFlag) : SameDecomposition s (s.raise e) :=
  ⟨.refl s, setFlag_busy .., setFlag_done .., setFlag_fmt ..⟩

theorem sameDecomposition_noteRead (s : State) (a : Slot) : SameDecomposition s (noteRead a s) := by
  unfold noteRead
  split
  · exact sameDecomposition_raise s .badreg
  · exact ⟨.refl s, rfl, rfl, rfl⟩

/-- A HOST transaction leaves the decomposition alone unless it is an accepted DECS or DECD (70_reset_and_hazards.md R133). -/
theorem HostEffect.sameDecomposition_or_accepted {s t : State} {tr : Transaction} (h : HostEffect s tr t) :
    SameDecomposition s t
      ∨ s.status.busy = false ∧ ∃ f, tr = asmCommand (decCommand f) ∧ t = acceptDecomposition f s := by
  cases h with
  | accepted f d hd hb =>
    obtain rfl := eq_data_of_decodeCommand hd
    exact .inr ⟨hb, f, rfl, rfl⟩
  | read a =>
    have hsame := sameDecomposition_noteRead s a
    exact .inl ⟨hsame.results, hsame.busy, hsame.done, hsame.fmt⟩
  | illegal | dropped | badDigit | badWrite => exact .inl (sameDecomposition_raise s _)
  | nop | hexclr | digit | hexend | clear | load => exact .inl ⟨.refl s, rfl, rfl, rfl⟩

/-! ### A finished decomposition stays -/

theorem noDecomposition.not_mem {events : List Event} (h : noDecomposition events) (f : Format) :
    Event.host (asmCommand (decCommand f)) ∉ events := by
  cases f
  · exact h.1
  · exact h.2

theorem step_sameDecomposition_of_idle {s t : State} (hb : s.status.busy = false) (hreset : noReset s.events)
    (hdec : noDecomposition s.events) (h : step s = .next t) : SameDecomposition s t := by
  obtain ⟨rest, he, -⟩ | ⟨-, tr, rest, he, heff⟩ | ⟨-, rest, -, rfl⟩ := step_cases s t h
  · exact absurd (he ▸ List.mem_cons_self) hreset
  · obtain hsame | ⟨-, f, rfl, -⟩ := heff.sameDecomposition_or_accepted
    · exact hsame.of_withEvents
    · exact absurd (he ▸ List.mem_cons_self) (hdec.not_mem f)
  · rw [engineEvent_of_idle { s with events := rest } hb]
    exact ⟨.refl s, rfl, rfl, rfl⟩

/-- u still has the decomposition of s, and nothing pending can replace it. -/
def StillShows (s u : State) : Prop := SameDecomposition s u ∧ noReset u.events ∧ noDecomposition u.events

theorem StillShows.after_step {s t u : State} (hb : s.status.busy = false) (h : StillShows s t) (hstep : step t = .next u) :
    StillShows s u := by
  obtain ⟨hsame, hreset, hdec⟩ := h
  have hkept := step_sameDecomposition_of_idle (hsame.busy.trans hb) hreset hdec hstep
  exact ⟨hsame.trans hkept, step_noReset hstep hreset, step_noDecomposition hstep hdec⟩

/-- Settles O30: what such a step keeps, kept over all of them. -/
theorem resultsStayUntilTheNextDecomposition : Obligations.ResultsStayUntilTheNextDecomposition := by
  intro s evs hr hb hd hreset hdec
  obtain ⟨u, hu, hsame, -, -⟩ := steps_keep (P := StillShows s) (fun _ _ => StillShows.after_step hb) evs.length
    (s := { s with events := evs }) hr ⟨⟨.refl s, rfl, rfl, rfl⟩, hreset, hdec⟩
  exact ⟨u, hu, hsame.results, hsame.busy.trans hb, hsame.done.trans hd, hsame.fmt⟩

/-! ### Polling ends -/

/-- A busy block after the first reset, with no reset pending. -/
structure Polling (s : State) : Prop where
  inv : BlockInv s
  resetSeen : s.resetSeen = true
  busy : s.status.busy = true
  noReset : noReset s.events

/-- The pending events and the ENGINE steps still owed. -/
def pollBound (s : State) : Nat := s.events.length + (ntot s.status.fmt - s.kcnt.toNat)

theorem Polling.kcnt_lt {s : State} (h : Polling s) : s.kcnt.toNat < ntot s.status.fmt := (h.inv.busy_counts h.busy).1

theorem Polling.of_step {s t : State} (h : Polling s) (hstep : step s = .next t) (hb : t.status.busy = true) : Polling t :=
  ⟨everyStepKeepsTheInvariant s t h.inv hstep, step_resetSeen hstep, hb, step_noReset hstep h.noReset⟩

/-- An ENGINE step that is not the last pays one of the steps owed. -/
theorem pollBound_engineStep_lt {s : State} (hk : s.kcnt.toNat < ntot s.status.fmt) :
    pollBound (engineStep s) < pollBound s := by
  rw [pollBound, pollBound, engineStep_events, engineStep_fmt, engineStep_kcnt_toNat hk]
  omega

/-- An event that leaves the decomposition alone is one pending event less. -/
theorem pollBound_lt_of_sameDecomposition {s t : State} (h : SameDecomposition s t)
    (hlt : t.events.length < s.events.length) : pollBound t < pollBound s := by
  obtain ⟨-, -, -, -, -, -, -, hkcnt, -⟩ := h.results
  rw [pollBound, pollBound, h.fmt, hkcnt]
  exact Nat.add_lt_add_right hlt _

/-- A step of a busy block either ends the decomposition or brings its end nearer. -/
theorem Polling.ends_or_nearer {s t : State} (h : Polling s) (hstep : step s = .next t) :
    (t.status.busy = false ∧ t.status.done = true) ∨ (Polling t ∧ pollBound t < pollBound s) := by
  obtain ⟨rest, he, -⟩ | ⟨-, tr, rest, he, heff⟩ | ⟨-, rest, he, rfl⟩ := step_cases s t hstep
  · exact absurd (he ▸ List.mem_cons_self) h.noReset
  · obtain hsame | ⟨hidle, -⟩ := heff.sameDecomposition_or_accepted
    · refine .inr ⟨h.of_step hstep (hsame.busy.trans h.busy), pollBound_lt_of_sameDecomposition hsame.of_withEvents ?_⟩
      rw [heff.events_eq, he]
      exact Nat.lt_succ_self _
    · cases h.busy.symm.trans hidle
  · have hrest : rest.length ≤ s.events.length := by
      obtain he | ⟨-, rfl⟩ := he
      · rw [he]
        exact Nat.le_succ _
      · exact Nat.zero_le _
    rw [engineEvent_of_busy { s with events := rest } h.busy] at hstep ⊢
    have hstatus := engineStep_status { s with events := rest }
    split at hstatus
    · rw [hstatus]
      exact .inl ⟨rfl, rfl⟩
    · refine .inr ⟨h.of_step hstep (by rw [hstatus]; exact h.busy), ?_⟩
      exact (pollBound_engineStep_lt (s := { s with events := rest }) h.kcnt_lt).trans_le (Nat.add_le_add_right hrest _)

theorem Polling.ends {s : State} (h : Polling s) :
    ∃ n t, n ≤ pollBound s ∧ steps n s = .next t ∧ t.status.busy = false ∧ t.status.done = true := by
  obtain ⟨t, hstep⟩ := exists_step h.resetSeen
  obtain hend | ⟨ht, hlt⟩ := h.ends_or_nearer hstep
  · have hk := h.kcnt_lt
    exact ⟨1, t, by rw [pollBound]; omega, steps_succ_of_step hstep 0, hend⟩
  · obtain ⟨n, u, hn, hu, hend⟩ := ht.ends
    exact ⟨n + 1, u, by omega, (steps_succ_of_step hstep n).trans hu, hend⟩
termination_by pollBound s

/-- Settles O54: by induction on the bound. -/
theorem pollingEnds : Obligations.PollingEnds := fun _ hinv hr hb hn => Polling.ends ⟨hinv, hr, hb, hn⟩

end Sys2Proof.Machine
end

section
/-! SUPPORT. Proofs of the encoding rules (30_encoding.md): the one word of each command (R58), the clauses that make a
word illegal (R60), and encode against decode (R51, R53). -/

namespace Sys2Proof.Machine

/-! ### The word of a command -/

theorem hexdig_data (c : BitVec 8) : Command.data (.hexdig c) = BitVec.ofNat 64 (256 * c.toNat + 0x11) := by
  have hc := c.isLt
  apply BitVec.eq_of_toNat_eq
  rw [hexdig_data_toNat, BitVec.toNat_ofNat, Nat.mod_eq_of_lt (by omega)]

theorem decodeCommand_hexdig_data (c : BitVec 8) : decodeCommand (Command.data (.hexdig c)) = .ok (.hexdig c) := by
  have hc := c.isLt
  have hdata := hexdig_data_toNat c
  obtain ⟨-, -, -, himm⟩ := commandData_fields (Command.data (.hexdig c))
  have hc' : (Command.data (.hexdig c)).extractLsb' 8 8 = c := BitVec.eq_of_toNat_eq (by omega)
  rw [decodeCommand_toNat, hc']
  iterate 6 rw [if_neg (by omega)]
  rw [if_pos (by omega)]

/-- R58: each command has exactly one word. -/
theorem decodeCommand_eq_ok_iff (d : Word) (c : Command) : decodeCommand d = .ok c ↔ d = c.data := by
  refine ⟨eq_data_of_decodeCommand, ?_⟩
  rintro rfl
  cases c with
  | hexdig c => exact decodeCommand_hexdig_data c
  | nop | decs | decd | hexclr | hexend => rfl

theorem decodeCommand_eq_ok_iff_toNat (d : Word) (c : Command) : decodeCommand d = .ok c ↔ d.toNat = c.data.toNat := by
  rw [decodeCommand_eq_ok_iff, BitVec.toNat_inj]

theorem data_toNat_lt (c : Command) : c.data.toNat < 2 ^ 32 := by
  cases c with
  | hexdig c =>
    have hc := c.isLt
    rw [hexdig_data_toNat]
    omega
  | nop | decs | decd | hexclr | hexend => decide

/-! ### The match and mask rows -/

/-- The row r selects exactly the words of the commands that have its mnemonic. -/
def RowSelects (r : CommandRow) : Prop :=
  ∀ w : BitVec 32, r.matchesWord w = true ↔ ∃ c, decodeCommand (w.setWidth 64) = .ok c ∧ c.mnemonic = r.mnemonic

theorem setWidth_eq_setWidth_iff (w p : BitVec 32) : w.setWidth 64 = p.setWidth 64 ↔ w = p :=
  ⟨fun h => by simpa using congrArg (BitVec.setWidth 32) h, congrArg _⟩

/-- A row whose mask has every bit selects the word of its one command. -/
theorem selects_of_full_mask {r : CommandRow} (c : Command) (hmask : r.mask = BitVec.allOnes 32)
    (hword : r.pattern.setWidth 64 = c.data) (honly : ∀ k : Command, k.mnemonic = r.mnemonic ↔ k = c) :
    RowSelects r := by
  intro w
  simp only [CommandRow.matchesWord, hmask, BitVec.and_allOnes, beq_iff_eq, honly, decodeCommand_eq_ok_iff,
    exists_eq_right, ← hword, setWidth_eq_setWidth_iff]

/-- The mask of HEXDIG's row keeps every bit but those of IMM8. -/
theorem and_hexdigMask_fields (n : Nat) (h : n < 2 ^ 32) :
    (n &&& 0xFFFF00FF) / 2 ^ 16 = n / 2 ^ 16 ∧ (n &&& 0xFFFF00FF) / 2 ^ 8 % 2 ^ 8 = 0
      ∧ (n &&& 0xFFFF00FF) % 2 ^ 8 = n % 2 ^ 8 := by
  refine ⟨?_, ?_, ?_⟩
  · rw [Nat.and_div_two_pow, show 0xFFFF00FF / 2 ^ 16 = 2 ^ 16 - 1 from rfl, Nat.and_two_pow_sub_one_eq_mod,
      Nat.mod_eq_of_lt (by omega)]
  · rw [Nat.and_div_two_pow, Nat.and_mod_two_pow, show 0xFFFF00FF / 2 ^ 8 % 2 ^ 8 = 0 from rfl, Nat.and_zero]
  · rw [Nat.and_mod_two_pow, show 0xFFFF00FF % 2 ^ 8 = 2 ^ 8 - 1 from rfl, Nat.and_two_pow_sub_one_eq_mod, Nat.mod_mod]

theorem and_hexdigMask_eq_iff (w : BitVec 32) :
    w &&& 0xFFFF00FF = 0x11 ↔ ∃ c : BitVec 8, w.setWidth 64 = Command.data (.hexdig c) := by
  have hw := w.isLt
  obtain ⟨hhigh, himm, hop⟩ := and_hexdigMask_fields w.toNat hw
  have hmask : (w &&& 0xFFFF00FF).toNat = w.toNat &&& 0xFFFF00FF := BitVec.toNat_and ..
  have hpat : (0x11 : BitVec 32).toNat = 0x11 := rfl
  have hwide : (w.setWidth 64).toNat = w.toNat := by rw [BitVec.toNat_setWidth, Nat.mod_eq_of_lt (by omega)]
  simp only [← BitVec.toNat_inj, hexdig_data_toNat, hmask, hpat, hwide]
  constructor
  · intro h
    refine ⟨w.extractLsb' 8 8, ?_⟩
    rw [BitVec.extractLsb'_toNat, Nat.shiftRight_eq_div_pow]
    omega
  · rintro ⟨c, hc⟩
    have := c.isLt
    omega

theorem hexdigRow_selects : RowSelects { mnemonic := "HEXDIG", pattern := 0x11, mask := 0xFFFF00FF } := by
  intro w
  simp only [CommandRow.matchesWord, beq_iff_eq, and_hexdigMask_eq_iff, decodeCommand_eq_ok_iff]
  constructor
  · rintro ⟨c, hc⟩
    exact ⟨.hexdig c, hc, rfl⟩
  · rintro ⟨k, hk, hm⟩
    cases k with
    | hexdig c => exact ⟨c, hk⟩
    | nop | decs | decd | hexclr | hexend => simp [Command.mnemonic] at hm

theorem row_selects {r : CommandRow} (hr : r ∈ commandTable) : RowSelects r := by
  simp only [commandTable, List.mem_cons, List.not_mem_nil, or_false] at hr
  obtain rfl | rfl | rfl | rfl | rfl | rfl := hr
  · exact selects_of_full_mask .nop rfl rfl (by intro k; cases k <;> simp [Command.mnemonic])
  · exact selects_of_full_mask .decs rfl rfl (by intro k; cases k <;> simp [Command.mnemonic])
  · exact selects_of_full_mask .decd rfl rfl (by intro k; cases k <;> simp [Command.mnemonic])
  · exact selects_of_full_mask .hexclr rfl rfl (by intro k; cases k <;> simp [Command.mnemonic])
  · exact hexdigRow_selects
  · exact selects_of_full_mask .hexend rfl rfl (by intro k; cases k <;> simp [Command.mnemonic])

theorem setWidth_setWidth_of_lt {d : Word} (h : d.toNat < 2 ^ 32) : (d.setWidth 32).setWidth 64 = d := by
  apply BitVec.eq_of_toNat_eq
  rw [BitVec.toNat_setWidth, BitVec.toNat_setWidth]
  omega

/-- Settles O2: the unique word of each command, and what a row selects among the words below 2^32. -/
theorem eachCommandHasExactlyItsWord : Obligations.EachCommandHasExactlyItsWord := by
  intro d c
  have hword := decodeCommand_eq_ok_iff_toNat d
  refine ⟨hword .nop, hword .decs, hword .decd, hword .hexclr, ?_, hword .hexend, fun r hr => ?_⟩
  · rw [hword, hexdig_data_toNat]
  constructor
  · rintro ⟨k, hd, hk⟩
    have hlt : d.toNat < 2 ^ 32 := eq_data_of_decodeCommand hd ▸ data_toNat_lt k
    exact ⟨hlt, (row_selects hr _).2 ⟨k, by rwa [setWidth_setWidth_of_lt hlt], hk⟩⟩
  · rintro ⟨hlt, hmatch⟩
    rw [row_selects hr, setWidth_setWidth_of_lt hlt] at hmatch
    exact hmatch

/-- Two rows with the mnemonic of one command are one row. -/
theorem countP_mnemonic_le_one (c : Command) : commandTable.countP (fun r => r.mnemonic == c.mnemonic) ≤ 1 := by
  cases c with
  | hexdig c => exact (by decide : commandTable.countP (fun r => r.mnemonic == "HEXDIG") ≤ 1)
  | nop | decs | decd | hexclr | hexend => decide

/-- Settles O5: what each row selects, and that a word decodes to one command. -/
theorem commandTableMatchesAndMasks : Obligations.CommandTableMatchesAndMasks := by
  refine fun w => ⟨fun r hr => row_selects hr w, ?_⟩
  cases hd : decodeCommand (w.setWidth 64) with
  | error e =>
    have hnone : commandTable.countP (fun r => r.matchesWord w) = 0 := by
      rw [List.countP_eq_zero]
      intro r hr hm
      obtain ⟨c, hc, -⟩ := (row_selects hr w).1 hm
      cases hd.symm.trans hc
    omega
  | ok c =>
    refine (List.countP_mono_left fun r hr hm => ?_).trans (countP_mnemonic_le_one c)
    obtain ⟨c', hc', hname⟩ := (row_selects hr w).1 hm
    cases hd.symm.trans hc'
    exact beq_iff_eq.2 hname.symm

/-! ### Legal and illegal words -/

/-- A word is legal when none of the clauses of R60 holds. -/
theorem exists_decodeCommand_eq_ok_iff (d : Word) :
    (∃ c, decodeCommand d = .ok c) ↔
      d.toNat / 2 ^ 32 = 0 ∧ d.toNat / 2 ^ 16 % 2 ^ 16 = 0 ∧ d.toNat % 256 ∈ [0x00, 0x01, 0x02, 0x10, 0x11, 0x12]
        ∧ (d.toNat % 256 = 0x11 ∨ d.toNat / 256 % 256 = 0) := by
  constructor
  · rintro ⟨c, hd⟩
    obtain rfl := eq_data_of_decodeCommand hd
    cases c with
    | hexdig c =>
      have hc := c.isLt
      have hop : (256 * c.toNat + 0x11) % 256 = 0x11 := by omega
      rw [hexdig_data_toNat, hop]
      exact ⟨by omega, by omega, by decide, .inl rfl⟩
    | nop | decs | decd | hexclr | hexend => decide
  · rintro ⟨hhigh, hrsv, hop, himm⟩
    have hword := decodeCommand_eq_ok_iff_toNat d
    simp only [List.mem_cons, List.not_mem_nil, or_false] at hop
    obtain hop | hop | hop | hop | hop | hop := hop
    · exact ⟨.nop, (hword _).2 (show d.toNat = 0x00 by omega)⟩
    · exact ⟨.decs, (hword _).2 (show d.toNat = 0x01 by omega)⟩
    · exact ⟨.decd, (hword _).2 (show d.toNat = 0x02 by omega)⟩
    · exact ⟨.hexclr, (hword _).2 (show d.toNat = 0x10 by omega)⟩
    · refine ⟨.hexdig (BitVec.ofNat 8 (d.toNat / 256)), (hword _).2 ?_⟩
      rw [hexdig_data_toNat, BitVec.toNat_ofNat]
      omega
    · exact ⟨.hexend, (hword _).2 (show d.toNat = 0x12 by omega)⟩

theorem exists_decodeCommand_eq_error_iff (d : Word) :
    (∃ e, decodeCommand d = .error e) ↔ ¬∃ c, decodeCommand d = .ok c := by
  cases decodeCommand d <;> simp

/-- Settles O6: the clauses are those of a legal word negated, and the write of an illegal word is `raise`. -/
theorem illegalEncodingsOnlySetIll : Obligations.IllegalEncodingsOnlySetIll := by
  refine fun d s => ⟨?_, fun ⟨e, he⟩ => runCommand_error d s e he⟩
  rw [exists_decodeCommand_eq_error_iff, exists_decodeCommand_eq_ok_iff]
  tauto

/-- Settles O7: the four checks are the four clauses of a legal word. -/
theorem commandLegalityMatchesDecoder : Obligations.CommandLegalityMatchesDecoder := by
  intro d
  rw [exists_decodeCommand_eq_ok_iff]
  simp only [CommandData.wellFormed, CommandData.highZero, CommandData.reservedZero, CommandData.opAssigned,
    CommandData.immAllowed, CommandData.op, CommandData.imm8, Bool.and_eq_true, Bool.or_eq_true, beq_iff_eq,
    List.contains_iff_mem, and_assoc]
  exact Iff.rfl

/-! ### Encode and decode -/

theorem encode_toInstr (c : Command) : encode c.toInstr = .cmd c.data := by cases c <;> rfl

/-- R51: an instruction is a command, a read or a write. -/
theorem instr_cases (i : Instr) : (∃ c : Command, i = c.toInstr) ∨ (∃ a, i = .rd a) ∨ ∃ a d, i = .wr a d := by
  cases i with
  | nop => exact .inl ⟨.nop, rfl⟩
  | decs => exact .inl ⟨.decs, rfl⟩
  | decd => exact .inl ⟨.decd, rfl⟩
  | hexclr => exact .inl ⟨.hexclr, rfl⟩
  | hexdig c => exact .inl ⟨.hexdig c, rfl⟩
  | hexend => exact .inl ⟨.hexend, rfl⟩
  | rd a => exact .inr (.inl ⟨a, rfl⟩)
  | wr a d => exact .inr (.inr ⟨a, d, rfl⟩)

theorem decode_cmd_data (c : Command) : decode (.cmd c.data) = .ok c.toInstr := by
  rw [decode, (decodeCommand_eq_ok_iff _ c).2 rfl]
  rfl

/-- R63, R68: the write of a command's word runs the command. -/
theorem exec_decodeBus_command (c : Command) (s : State) :
    exec (decodeBus (Transaction.command c.data)) s = exec c.toInstr s :=
  runCommand_ok _ s c ((decodeCommand_eq_ok_iff _ c).2 rfl)

theorem exec_decodeBus_encode (i : Instr) (s : State) : exec (decodeBus (encode i).transaction) s = exec i s := by
  obtain ⟨c, rfl⟩ | ⟨a, rfl⟩ | ⟨a, d, rfl⟩ := instr_cases i
  · rw [encode_toInstr]
    exact exec_decodeBus_command c s
  · rfl
  · rfl

/-- Settles O3: a command goes through its word, a bus instruction through its transaction. -/
theorem decodeEncodeAgreeAndRun : Obligations.DecodeEncodeAgreeAndRun := by
  refine fun i _ => ⟨?_, exec_decodeBus_encode i⟩
  obtain ⟨c, rfl⟩ | ⟨a, rfl⟩ | ⟨a, d, rfl⟩ := instr_cases i
  · rw [encode_toInstr, decode_cmd_data]
  · rfl
  · rfl

/-- Settles O4: a legal word is its command's, and only a read has bits that it ignores. -/
theorem decodedObjectsReencode : Obligations.DecodedObjectsReencode := by
  intro e i h
  cases e with
  | bus t =>
    obtain ⟨we, a, d⟩ := t
    cases Except.ok.inj h
    cases we with
    | false => exact .inr ⟨a, d, rfl, rfl⟩
    | true => exact .inl rfl
  | cmd d =>
    cases hd : decodeCommand d with
    | error e =>
      rw [decode, hd] at h
      cases h
    | ok c =>
      obtain rfl := eq_data_of_decodeCommand hd
      cases (decode_cmd_data c).symm.trans h
      exact .inl (encode_toInstr c)

/-- Settles O8: `decodeBus` tests WE alone. -/
theorem busDecoderIsTotal : Obligations.BusDecoderIsTotal := fun _ _ => ⟨rfl, rfl⟩

/-- Settles O1. -/
theorem wordsOfTheEncodingTableDecode : Obligations.WordsOfTheEncodingTableDecode := by
  unfold Obligations.WordsOfTheEncodingTableDecode
  decide

/-- Settles O47: a HOST step is `exec` of what its transaction decodes to, and an encoding runs as its instruction. -/
theorem stepRunsTheDecodedInstruction : Obligations.StepRunsTheDecodedInstruction := by
  refine fun s tr rest hr he => ⟨step_of_host hr he, ?_⟩
  rintro i rfl
  rw [step_of_host hr he, exec_decodeBus_encode]

/-! ### Pseudo-instructions -/

theorem clearFlags_clrerr (s : State) : s.clearFlags 0x0000000000000F00
    = { s with status := { s.status with ill := false, ovr := false, baddig := false, badreg := false } } := by
  have hbit (f : ErrorFlag) : (0x0000000000000F00 : Word).getLsbD (errorCode f) = true := by cases f <;> rfl
  simp only [State.clearFlags, clearFlags, hbit, Bool.not_true, Bool.and_false]

/-- Settles O17: HEXDIG's word is the one that is computed, and CLRERR's D has a 1 at each flag. -/
theorem pseudoInstructionsExpand : Obligations.PseudoInstructionsExpand := by
  intro s imm32 imm64 n chars
  have hdig : (fun c => asmCommand (.hexdig c))
      = fun c : BitVec 8 => ⟨true, 0x00, BitVec.ofNat 64 (256 * c.toNat + 0x11)⟩ := by
    funext c
    rw [← hexdig_data]
    rfl
  have hloads : asmLoads imm32 = [⟨true, 0x02, BitVec.ofNat 64 imm32.toNat⟩] := by
    rw [BitVec.ofNat_toNat]
    rfl
  refine ⟨rfl, hloads, rfl, rfl, rfl, rfl, ?_, ?_, ?_, rfl⟩
  · rw [asmHexstr, hdig]
    rfl
  · rw [← clearFlags_clrerr]
    rfl
  · rw [hloads]
    rfl

end Sys2Proof.Machine
end

section
/-! SUPPORT. Proof of what the polling pseudo-instructions do under every interleaving with the ENGINE (30_encoding.md R64;
70_reset_and_hazards.md R138). -/

namespace Sys2Proof.Machine

/-! ### What a read of STATUS and an ENGINE turn leave unchanged -/

/-- A decomposition's BUSY, DONE and KCNT fit together: steps are owed while BUSY = 1, and all are done when it is 0. -/
def CountsSteps (s : State) : Prop :=
  (s.status.busy = true ∧ s.kcnt.toNat < ntot s.status.fmt)
    ∨ (s.status.busy = false ∧ s.status.done = true ∧ s.kcnt.toNat = ntot s.status.fmt)

theorem countsSteps_acceptDecomposition (f : Format) (s : State) : CountsSteps (acceptDecomposition f s) :=
  .inl ⟨rfl, ntot_pos f⟩

theorem CountsSteps.engineEvent {s : State} (h : CountsSteps s) : CountsSteps (engineEvent s) := by
  obtain ⟨hb, hk⟩ | ⟨hb, hdone⟩ := h
  · have hkcnt := engineStep_kcnt_toNat hk
    have hstatus := engineStep_status s
    rw [engineEvent_of_busy s hb, CountsSteps, engineStep_fmt, hkcnt, hstatus]
    split
    · next hlast => exact .inr ⟨rfl, rfl, hlast⟩
    · exact .inl ⟨hb, by omega⟩
  · rw [engineEvent_of_idle s hb]
    exact .inr ⟨hb, hdone⟩

/-- Since s nothing has happened to u but ENGINE turns and reads of STATUS. -/
structure PollingKeeps (s u : State) : Prop where
  inReg : u.inReg = s.inReg
  loader : SameLoader s u
  flags : ∀ e : ErrorFlag, flagSet u.status e = flagSet s.status e
  fmt : u.status.fmt = s.status.fmt
  src : u.src = s.src
  sign : u.sign = s.sign
  bexp : u.bexp = s.bexp
  uexp : u.uexp = s.uexp
  mfield : u.mfield = s.mfield
  idle : s.status.busy = false → u.status = s.status ∧ SameResults s u
  counts : CountsSteps s → CountsSteps u

theorem pollingKeeps_refl (s : State) : PollingKeeps s s :=
  ⟨rfl, ⟨rfl, rfl, rfl⟩, fun _ => rfl, rfl, rfl, rfl, rfl, rfl, rfl, fun _ => ⟨rfl, .refl s⟩, id⟩

/-- The relation does not look at what a read returned or at the events to come. -/
theorem PollingKeeps.withSurroundings {s u : State} (h : PollingKeeps s u) (rdata : Word) (events : List Event) :
    PollingKeeps s { u with rdata := rdata, events := events } :=
  { h with }

theorem engineStep_flagSet (s : State) (e : ErrorFlag) : flagSet (engineStep s).status e = flagSet s.status e := by
  rw [engineStep_status]
  split
  · exact statusComplete_flagSet ..
  · rfl

theorem PollingKeeps.engineEvent {s u : State} (h : PollingKeeps s u) : PollingKeeps s (engineEvent u) := by
  cases hb : u.status.busy with
  | false => rwa [engineEvent_of_idle u hb]
  | true =>
    have hcounts := CountsSteps.engineEvent (s := u)
    rw [engineEvent_of_busy u hb] at hcounts ⊢
    refine { h with flags := fun e => (engineStep_flagSet u e).trans (h.flags e), fmt := (engineStep_fmt u).trans h.fmt,
                    idle := fun hs => ?_, counts := fun hs => hcounts (h.counts hs) }
    obtain ⟨hstatus, -⟩ := h.idle hs
    cases hb.symm.trans ((congrArg Status.busy hstatus).trans hs)

/-! ### What the last read says -/

/-- What a read of STATUS since s says of u: BUSY = 0 if it shows that, and the STATUS word of s if s is idle. -/
structure LastReadTells (s u : State) : Prop where
  shown : u.rdata.getLsbD 0 = false → u.status.busy = false
  idle : s.status.busy = false → u.rdata = statusWord s.status

/-- The ENGINE's turns do not set BUSY. -/
theorem LastReadTells.engineEvent {s u : State} (h : LastReadTells s u) : LastReadTells s (engineEvent u) := by
  refine ⟨fun hread => ?_, fun hs => (engineEvent_rdata u).trans (h.idle hs)⟩
  rw [engineEvent_rdata] at hread
  have hb := h.shown hread
  rwa [engineEvent_of_idle u hb]

theorem LastReadTells.withEvents {s u : State} (h : LastReadTells s u) (events : List Event) :
    LastReadTells s { u with events := events } :=
  { h with }

theorem PollingKeeps.lastReadTells {s u : State} (h : PollingKeeps s u) (events : List Event) :
    LastReadTells s { u with rdata := statusWord u.status, events := events } where
  shown hread := (statusWord_getLsbD u.status 0).symm.trans hread
  idle hs := congrArg statusWord (h.idle hs).1

/-! ### Runs -/

theorem exec_readStatus (s : State) :
    exec (decodeBus (asmRd slotSTATUS)) s = .next { s with rdata := statusWord s.status } := rfl

/-- A run of n reads of STATUS and any ENGINE turns, from a state u in which s has been polled already. -/
theorem waitidle_run {s u : State} {evs : List Event} {n : Nat} (hr : u.resetSeen = true) (he : u.events = evs)
    (hreset : noReset evs) (hhost : hostTransactions evs = asmWaitidle n) (hu : PollingKeeps s u) :
    ∃ v, steps evs.length u = .next v ∧ PollingKeeps s v ∧ (1 ≤ n ∨ LastReadTells s u → LastReadTells s v) := by
  induction evs generalizing u n with
  | nil =>
    cases n with
    | zero => exact ⟨u, rfl, hu, fun h => h.resolve_left (by decide)⟩
    | succ n => cases hhost
  | cons e rest ih =>
    have hreset' : noReset rest := fun hm => hreset (List.mem_cons_of_mem e hm)
    cases e with
    | reset => exact absurd List.mem_cons_self hreset
    | engine =>
      have hstep := step_of_engine hr he
      obtain ⟨v, hv, hkeeps, htells⟩ := ih (step_resetSeen hstep) (by rw [engineEvent_events]) hreset' hhost
        (hu.withSurroundings u.rdata rest).engineEvent
      refine ⟨v, (steps_succ_of_step hstep _).trans hv, hkeeps, fun h => htells (h.imp_right fun h => ?_)⟩
      exact (h.withEvents rest).engineEvent
    | host tr =>
      cases n with
      | zero => cases hhost
      | succ n =>
        obtain ⟨rfl, hhost'⟩ := List.cons.inj hhost
        have hstep := (step_of_host hr he).trans (exec_readStatus _)
        obtain ⟨v, hv, hkeeps, htells⟩ := ih (step_resetSeen hstep) rfl hreset' hhost' (hu.withSurroundings _ rest)
        exact ⟨v, (steps_succ_of_step hstep _).trans hv, hkeeps, fun _ => htells (.inr (hu.lastReadTells rest))⟩

theorem exec_decodeBus_decCommand (f : Format) (s : State) :
    exec (decodeBus (asmCommand (decCommand f))) s = exec (decInstr f) s :=
  (exec_decodeBus_command (decCommand f) s).trans (by cases f <;> rfl)

section
variable {s : State} (hr : s.resetSeen = true) (hb : s.status.busy = false) {rest : List Event}
include hr hb

theorem step_of_idle_turn (he : s.events = .engine :: rest) : step s = .next { s with events := rest } := by
  rw [step_of_engine hr he, engineEvent_of_idle { s with events := rest } hb]

theorem step_of_acceptance {f : Format} (he : s.events = .host (asmCommand (decCommand f)) :: rest) :
    step s = .next (acceptDecomposition f { s with events := rest }) := by
  rw [step_of_host hr he, exec_decodeBus_decCommand, exec_decInstr, decStart_of_idle f { s with events := rest } hb]

end

/-- DECSW and DECDW from an idle block: ENGINE turns that change nothing, the acceptance, and WAITIDLE after it. -/
theorem decwait_run (f : Format) {s : State} {evs : List Event} {n : Nat} (hr : s.resetSeen = true)
    (hb : s.status.busy = false) (hreset : noReset evs)
    (hhost : hostTransactions evs = asmCommand (decCommand f) :: asmWaitidle n) :
    ∃ v, steps evs.length { s with events := evs } = .next v ∧ PollingKeeps (acceptDecomposition f s) v
      ∧ (1 ≤ n → LastReadTells (acceptDecomposition f s) v) := by
  induction evs with
  | nil => cases hhost
  | cons e rest ih =>
    have hreset' : noReset rest := fun hm => hreset (List.mem_cons_of_mem e hm)
    cases e with
    | reset => exact absurd List.mem_cons_self hreset
    | engine =>
      have hstep : step { s with events := .engine :: rest } = .next { s with events := rest } :=
        step_of_idle_turn (s := { s with events := .engine :: rest }) hr hb rfl
      obtain ⟨v, hv, hrest⟩ := ih hreset' hhost
      exact ⟨v, (steps_succ_of_step hstep _).trans hv, hrest⟩
    | host tr =>
      obtain ⟨rfl, hhost'⟩ := List.cons.inj hhost
      have hstep : step { s with events := .host (asmCommand (decCommand f)) :: rest }
          = .next { acceptDecomposition f s with events := rest } :=
        step_of_acceptance (s := { s with events := .host (asmCommand (decCommand f)) :: rest }) hr hb rfl
      obtain ⟨v, hv, hkeeps, htells⟩ := waitidle_run (s := acceptDecomposition f s) (step_resetSeen hstep) rfl hreset' hhost'
        ((pollingKeeps_refl _).withSurroundings s.rdata rest)
      exact ⟨v, (steps_succ_of_step hstep _).trans hv, hkeeps, fun hn => htells (.inl hn)⟩

/-- Settles O55: by induction over the events, with what every poll keeps and what the last read says. -/
theorem pollingPseudoInstructionsRun : Obligations.PollingPseudoInstructionsRun := by
  refine fun f n s evs hr hreset => ⟨fun hhost => ?_, fun hhost hb => ?_⟩
  · obtain ⟨u, hu, hkeeps, htells⟩ := waitidle_run (s := s) (u := { s with events := evs }) hr rfl hreset hhost
      ((pollingKeeps_refl s).withSurroundings s.rdata evs)
    exact ⟨u, hu, hkeeps.inReg, hkeeps.loader, hkeeps.flags, hkeeps.src, hkeeps.sign, hkeeps.bexp, hkeeps.uexp,
      hkeeps.mfield, hkeeps.idle, fun hn => (htells (.inl hn)).shown, fun hn => (htells (.inl hn)).idle⟩
  · have hhost' : hostTransactions evs = asmCommand (decCommand f) :: asmWaitidle n := by
      obtain ⟨rfl, h⟩ | ⟨rfl, h⟩ := hhost <;> exact h
    obtain ⟨u, hu, hkeeps, htells⟩ := decwait_run f hr hb hreset hhost'
    refine ⟨u, hu, hkeeps.inReg, hkeeps.loader, fun e => (hkeeps.flags e).trans (statusAccept_flagSet ..), hkeeps.src,
      hkeeps.fmt, fun hn hread => ?_⟩
    have hidle := (htells hn).shown hread
    obtain ⟨hbusy, -⟩ | ⟨-, hdone, hkcnt⟩ := hkeeps.counts (countsSteps_acceptDecomposition f s)
    · cases hidle.symm.trans hbusy
    · rw [hkeeps.fmt] at hkcnt
      exact ⟨hidle, hdone, hkcnt⟩

end Sys2Proof.Machine
end

section
/-! SUPPORT. Proofs of the bus rules (40_bus_access.md): what a RD returns (R66), what a WR does (R67), the STATUS write
(R73), and the cases of BADREG and ILL (R69, R70). -/

namespace Sys2Proof.Machine

/-! ### Reads -/

/-- R32: the ranges of the unmapped slots. -/
theorem isUnmapped_iff (a : Slot) : isUnmapped a = true ↔ (0x0E ≤ a.toNat ∧ a.toNat ≤ 0x3F) ∨ 0x74 ≤ a.toNat :=
  decide_eq_true_iff

theorem exec_rd_of_mapped (s : State) {a : Slot} (h : isUnmapped a = false) :
    exec (.rd a) s = .next { s with rdata := readSlot s a } := by
  rw [exec, execRd, noteRead_of_mapped s h]

theorem exec_rd_of_unmapped (s : State) {a : Slot} (h : (0x0E ≤ a.toNat ∧ a.toNat ≤ 0x3F) ∨ 0x74 ≤ a.toNat) :
    exec (.rd a) s = .next { s with rdata := 0, status := { s.status with badreg := true } } := by
  have hu : isUnmapped a = true := (isUnmapped_iff a).2 h
  rw [exec, execRd, noteRead, if_pos hu, readSlot_unmapped s a hu]
  rfl

theorem hexstWord_eq_ofNat (hd1 : BitVec 4) (hn : BitVec 5) :
    hexstWord hd1 hn = BitVec.ofNat 64 (256 * hd1.toNat + hn.toNat) := by
  have hzero : (0 : BitVec 3).toNat = 0 := rfl
  have hcat : (hd1 ++ (0 : BitVec 3) ++ hn).toNat = 256 * hd1.toNat + hn.toNat := by
    rw [BitVec.toNat_append, BitVec.toNat_append, ← Nat.shiftLeft_add_eq_or_of_lt hn.isLt,
      ← Nat.shiftLeft_add_eq_or_of_lt (0 : BitVec 3).isLt, Nat.shiftLeft_eq, Nat.shiftLeft_eq, hzero]
    omega
  rw [hexstWord, ← BitVec.ofNat_toNat, hcat]

theorem readSlot_hexst (s : State) : readSlot s 0x0C = BitVec.ofNat 64 (256 * s.hd1.toNat + s.hn.toNat) :=
  hexstWord_eq_ofNat s.hd1 s.hn

theorem traceEntry_succ (tr : Vector Word 52) (k : Fin 52) : traceEntry tr (k + 1) = tr.get k := by
  simp [traceEntry, Vector.get]

/-- R30: slot 0x40 + k holds the entry k of the buffer. -/
theorem exec_rd_trace (s : State) (k : Fin 52) :
    exec (.rd (BitVec.ofNat 7 (0x40 + k))) s = .next { s with rdata := s.trace.get k } := by
  have hk := k.isLt
  have ha : (BitVec.ofNat 7 (0x40 + k)).toNat = 0x40 + k := by
    rw [BitVec.toNat_ofNat, Nat.mod_eq_of_lt (by omega)]
  have hmapped : isUnmapped (BitVec.ofNat 7 (0x40 + k)) = false := by
    rw [← Bool.not_eq_true, isUnmapped_iff]
    omega
  have hentry : 0x40 + k.val - 0x3F = k + 1 := by omega
  rw [exec_rd_of_mapped s hmapped, readSlot_trace s _ (by omega) (by omega), ha, hentry, traceEntry_succ]

/-- Settles O9: a slot at a fixed index by evaluating `readSlot`, the buffer and the unmapped slots by their ranges. -/
theorem readReturnsTheSlot : Obligations.ReadReturnsTheSlot := by
  intro s
  have hmapped (a : Slot) (h : isUnmapped a = false) {v : Word} (hv : readSlot s a = v) :
      exec (.rd a) s = .next { s with rdata := v } := hv ▸ exec_rd_of_mapped s h
  exact ⟨hmapped 0x00 rfl rfl, hmapped 0x01 rfl rfl, hmapped 0x02 rfl rfl, hmapped 0x03 rfl rfl,
    hmapped 0x04 rfl (BitVec.ofNat_toNat 64 s.sign).symm, hmapped 0x05 rfl (BitVec.ofNat_toNat 64 s.bexp).symm,
    hmapped 0x06 rfl rfl, hmapped 0x07 rfl (BitVec.ofNat_toNat 64 s.mfield).symm, hmapped 0x08 rfl rfl,
    hmapped 0x09 rfl rfl, hmapped 0x0A rfl (BitVec.ofNat_toNat 64 s.kcnt).symm, hmapped 0x0B rfl rfl,
    hmapped 0x0C rfl (readSlot_hexst s), hmapped 0x0D rfl rfl, exec_rd_trace s, fun _ => exec_rd_of_unmapped s⟩

/-! ### Writes -/

/-- R67, R69: a slot from 3 up takes no write, be it read-only or unmapped. -/
theorem exec_wr_of_three_le (d : Word) (s : State) {a : Slot} (h : 3 ≤ a.toNat) :
    exec (.wr a d) s = .next { s with status := { s.status with badreg := true } } := by
  obtain ⟨rfl, -⟩ | ⟨rfl, -⟩ | ⟨rfl, -⟩ | ⟨-, hw⟩ := execWr_cases a d s
  · exact absurd h (by decide)
  · exact absurd h (by decide)
  · exact absurd h (by decide)
  · exact hw

/-- R70: an illegal word sets ILL alone. -/
theorem exec_wr_cmd_of_illegal {d : Word} {e : DecodeError} (s : State) (h : decodeCommand d = .error e) :
    exec (.wr slotCMD d) s = .next { s with status := { s.status with ill := true } } :=
  runCommand_error d s e h

/-- Settles O12: by the slot, and for CMD by what the word decodes to. -/
theorem writeDispatchesOnTheSlot : Obligations.WriteDispatchesOnTheSlot := fun d s =>
  ⟨runCommand_ok d s, fun _ => exec_wr_cmd_of_illegal s, rfl, rfl, fun _ => exec_wr_of_three_le d s⟩

/-! ### The STATUS write -/

/-- On the list of the bits, each bit is masked by its own position. -/
theorem statusBits_clearFlags (st : Status) (d : Word) :
    statusBits (clearFlags st d) =
      (statusBits st).mapIdx fun i b => b && !(decide (8 ≤ i ∧ i ≤ 11) && d.getLsbD i) := by
  simp [statusBits, clearFlags, errorCode, List.mapIdx_cons]

theorem statusWord_clearFlags_getLsbD (st : Status) (d : Word) (i : Nat) :
    (statusWord (clearFlags st d)).getLsbD i =
      ((statusWord st).getLsbD i && !(decide (8 ≤ i ∧ i ≤ 11) && d.getLsbD i)) := by
  rw [statusWord_getLsbD, statusWord_getLsbD, statusBits_clearFlags, List.getD_eq_getElem?_getD,
    List.getD_eq_getElem?_getD, List.getElem?_mapIdx]
  cases (statusBits st)[i]? with
  | none => rfl
  | some b => rfl

/-- Settles O13: on the bits of STATUS, the write masks each entry of a list. -/
theorem statusWriteClearsSelectedBits : Obligations.StatusWriteClearsSelectedBits := fun d s =>
  ⟨s.clearFlags d, rfl, statusWord_clearFlags_getLsbD s.status d, rfl⟩

/-! ### The errors of the bus -/

/-- R14, R116: no step but a write-1 to its bit of STATUS or a reset clears a flag. -/
theorem stickyFlag (f : ErrorFlag) : StickyFlag f := fun _ _ h =>
  (step_statusEffect h).reset_or_write_of_not_flagSet f

/-- Settles O14: every slot of the write cases is 3 or more. -/
theorem badregCasesChangeNothingElse : Obligations.BadregCasesChangeNothingElse := by
  refine ⟨fun a d s => ⟨exec_rd_of_unmapped s, fun h => ?_, fun h => ?_, exec_rd_of_mapped s rfl⟩, stickyFlag .badreg⟩
  · exact exec_wr_of_three_le d s (by omega)
  · exact exec_wr_of_three_le d s (by omega)

/-- Settles O15: the write of an illegal word does not look at BUSY. -/
theorem illegalCommandSetsIllAndSticks : Obligations.IllegalCommandSetsIllAndSticks :=
  ⟨fun _ s ⟨_, he⟩ => exec_wr_cmd_of_illegal s he, stickyFlag .ill⟩

/-- Settles O16: by evaluating `exec`. -/
theorem nopChangesNothing : Obligations.NopChangesNothing := fun _ => rfl

end Sys2Proof.Machine
end

section
/-! SUPPORT. Proofs of the acceptance rules (41_decompose.md R76 to R81), of the ENGINE step (R83, R84), and of what the last
step leaves (R87, R88). -/

namespace Sys2Proof.Machine

/-! ### Acceptance -/

theorem exec_decInstr_of_idle (f : Format) {s : State} (hb : s.status.busy = false) :
    exec (decInstr f) s = .next (acceptDecomposition f s) := by
  rw [exec_decInstr, decStart_of_idle f s hb]

theorem exec_decInstr_of_busy (f : Format) {s : State} (hb : s.status.busy = true) :
    exec (decInstr f) s = .next (s.raise .ovr) := by
  rw [exec_decInstr, decStart_of_busy f s hb]

/-- The sign of a binary64 pattern is its top bit, with nothing above it. -/
theorem sliceSign_double_toNat (x : Word) : (sliceSign .double x).toNat = x.toNat / 2 ^ 63 := by
  have hx := x.isLt
  rw [sliceSign_toNat, signPos]
  omega

/-- Settles O18: the slicer's fields in arithmetic, on the latched pattern. -/
theorem acceptanceSlicesTheLatchedPattern : Obligations.AcceptanceSlicesTheLatchedPattern := fun s hb =>
  ⟨⟨_, exec_decInstr_of_idle .single hb, rfl, rfl, latchSource_single_toNat s.inReg, sliceSign_toNat .single _,
      sliceBexp_toNat .single _, sliceUexp_toInt .single _, sliceMfield_toNat .single _⟩,
    _, exec_decInstr_of_idle .double hb, rfl, rfl, rfl, sliceSign_double_toNat _,
      sliceBexp_toNat .double _, sliceUexp_toInt .double _, sliceMfield_toNat .double _⟩

theorem fixedValue_fixedOne : fixedValue fixedOne = 1 := by
  rw [(fixedValue_w_iff fixedOne (Nat.zero_le 52)).2 rfl, pow_zero, div_one]

/-- Settles O19: by the fields of an acceptance. -/
theorem acceptanceInitialisesTheAccumulator : Obligations.AcceptanceInitialisesTheAccumulator := fun f _ hb =>
  ⟨_, exec_decInstr_of_idle f hb, fixedValue_fixedOne, fixedValue_fixedOne, enc64_one_add 0 (by decide),
    enc64_one_add 0 (by decide), rfl, ntot_pos f, fun k _ _ => traceEntry_replicate k, rfl⟩

/-- Settles O20: by the fields of an acceptance. -/
theorem acceptanceFrame : Obligations.AcceptanceFrame := fun f s hb =>
  ⟨_, exec_decInstr_of_idle f hb, rfl, ⟨rfl, rfl, rfl⟩, ⟨rfl, rfl, rfl⟩, statusAccept_flagSet s.status f⟩

/-- Settles O21: by BUSY. -/
theorem busyDecompositionIsDropped : Obligations.BusyDecompositionIsDropped := fun f _ =>
  ⟨exec_decInstr_of_busy f, fun hb => ⟨_, exec_decInstr_of_idle f hb, rfl, rfl, rfl, rfl⟩⟩

/-! ### The fraction and the pattern after one more bit

n is the number of steps, k of them are done, and m is the mantissa field. -/

theorem partfrac_succ {m n k : Nat} (hk : k < n) (hn : n ≤ 52) :
    partfrac m n (k + 1) = partfrac m n k + if m.testBit (n - (k + 1)) then 1 / 2 ^ (k + 1) else 0 := by
  have hk52 : k + 1 ≤ 52 := hk.trans_le hn
  have hpow : (2 : ℚ) ^ 52 = 2 ^ (52 - (k + 1)) * 2 ^ (k + 1) := by rw [← pow_add, Nat.sub_add_cancel hk52]
  rw [partfrac_eq_addedBits hk52, partfrac_eq_addedBits (Nat.le_of_succ_le hk52), addedBits_succ hk hn, Nat.cast_add,
    add_div]
  congr 1
  split
  · rw [hpow]
    push_cast
    field_simp
  · rw [Nat.cast_zero, zero_div]

/-- R85: the partial fraction is the sum over the tested bits. -/
theorem partfrac_eq_sum {m n k : Nat} (hm : m < 2 ^ n) (hk : k ≤ n) (hn : n ≤ 52) :
    partfrac m n k = ∑ j ∈ Finset.range k, if m.testBit (n - (j + 1)) then 1 / 2 ^ (j + 1) else 0 := by
  induction k with
  | zero => rw [partfrac_eq_addedBits (Nat.zero_le 52), addedBits_zero hm, Nat.cast_zero, zero_div, Finset.sum_range_zero]
  | succ k ih => rw [partfrac_succ hk hn, ih (Nat.le_of_succ_le hk), Finset.sum_range_succ]

/-- What is added by bit k + 1 lies below every bit added before. -/
theorem addedBits_add_eq_or (m n : Nat) {k : Nat} (hk : k < 52) :
    addedBits m n k + 2 ^ (52 - (k + 1)) = addedBits m n k ||| 2 ^ (52 - (k + 1)) := by
  rw [addedBits, ← Nat.shiftLeft_eq]
  exact Nat.shiftLeft_add_eq_or_of_lt (Nat.pow_lt_pow_right (by decide) (by omega)) _

theorem ofNat_mul_two_pow (x i : Nat) : BitVec.ofNat 64 (x * 2 ^ i) = BitVec.ofNat 64 x <<< i := by
  apply BitVec.eq_of_toNat_eq
  simp [Nat.shiftLeft_eq]

/-- R84: step k + 1 puts the tested bit at its place in the pattern. -/
theorem cumulativePattern_succ (m : BitVec 52) {n k : Nat} (hk : k < n) (hn : n ≤ 52) :
    cumulativePattern m n (k + 1) =
      cumulativePattern m n k ||| ((if m.getLsbD (n - (k + 1)) then 1 else 0 : Word) <<< (52 - (k + 1))) := by
  show (0x3FF0000000000000 : Word) ||| BitVec.ofNat 64 (addedBits m.toNat n (k + 1)) =
    0x3FF0000000000000 ||| BitVec.ofNat 64 (addedBits m.toNat n k) ||| _
  rw [addedBits_succ hk hn, BitVec.getLsbD, BitVec.or_assoc]
  congr 1
  split
  · have hbit := ofNat_mul_two_pow 1 (52 - (k + 1))
    rw [one_mul] at hbit
    rw [addedBits_add_eq_or _ _ (hk.trans_le hn), BitVec.ofNat_or, hbit]
    rfl
  · exact BitVec.or_zero.symm.trans (congrArg _ (BitVec.zero_shiftLeft _).symm)

/-! ### The ENGINE step -/

theorem engineStep_traceEntry (s : State) (j : Nat) : traceEntry (engineStep s).trace j =
    if j = s.kcnt.toNat + 1 ∧ s.kcnt.toNat + 1 ≤ 52 then (engineStep s).mant else traceEntry s.trace j := by
  rw [engineStep_trace, traceEntry_traceWrite]
  exact if_congr (by omega) rfl rfl

section
variable {s : State} (h : BlockInv s) (hb : s.status.busy = true)
include h hb

theorem BlockInv.kcnt_lt : s.kcnt.toNat < ntot s.status.fmt := (h.busy_counts hb).1

/-- R83 and R85: the sums are those of one bit more. -/
theorem BlockInv.engineStep_sums :
    (Machine.engineStep s).mant = cumulativePattern s.mfield (ntot s.status.fmt) (s.kcnt.toNat + 1)
      ∧ (Machine.engineStep s).weight = weightPattern (s.kcnt.toNat + 1)
      ∧ fixedValue (Machine.engineStep s).acc = 1 + partfrac s.mfield.toNat (ntot s.status.fmt) (s.kcnt.toNat + 1)
      ∧ fixedValue (Machine.engineStep s).w = 1 / 2 ^ (s.kcnt.toNat + 1) := by
  have hk := h.kcnt_lt hb
  obtain ⟨hmant, hweight, hacc, hw, -⟩ := (h.sums (.inl hb)).engineStep hk (h.fields (.inl hb)).mfield_lt
  rw [engineStep_kcnt_toNat hk] at hmant hweight hacc hw
  rw [engineStep_fmt] at hmant hacc
  exact ⟨hmant, hweight, hacc, hw⟩

theorem BlockInv.engineStep_fixedValue_w : fixedValue (Machine.engineStep s).w = fixedValue s.w / 2 := by
  obtain ⟨-, -, -, hw'⟩ := h.engineStep_sums hb
  obtain ⟨-, -, -, hw, -⟩ := h.sums (.inl hb)
  rw [hw', hw, pow_succ, div_div]

/-- The sum is exact: it stays below 2. -/
theorem BlockInv.engineStep_fixedValue_acc : fixedValue (Machine.engineStep s).acc =
    if s.mfield.getLsbD (ntot s.status.fmt - (s.kcnt.toNat + 1)) then fixedValue s.acc + fixedValue s.w / 2
    else fixedValue s.acc := by
  obtain ⟨-, -, hacc', hw'⟩ := h.engineStep_sums hb
  obtain ⟨-, -, hacc, -, -⟩ := h.sums (.inl hb)
  rw [← h.engineStep_fixedValue_w hb, hw', hacc', hacc, partfrac_succ (h.kcnt_lt hb) (ntot_le _), BitVec.getLsbD,
    ← add_assoc]
  split
  · rfl
  · rw [add_zero]

theorem BlockInv.engineStep_traceEntry_same :
    traceEntry (Machine.engineStep s).trace (s.kcnt.toNat + 1) = (Machine.engineStep s).mant := by
  have hk := h.kcnt_lt hb
  have hn := ntot_le s.status.fmt
  rw [engineStep_traceEntry, if_pos ⟨rfl, by omega⟩]

/-- R84, from the state with the pattern of R85. -/
theorem BlockInv.engineStep_mant_eq_or : (Machine.engineStep s).mant =
    s.mant ||| ((if s.mfield.getLsbD (ntot s.status.fmt - (s.kcnt.toNat + 1)) then 1 else 0 : Word)
      <<< (52 - (s.kcnt.toNat + 1))) := by
  obtain ⟨hmant', -⟩ := h.engineStep_sums hb
  obtain ⟨hmant, -⟩ := h.sums (.inl hb)
  rw [hmant', hmant]
  exact cumulativePattern_succ s.mfield (h.kcnt_lt hb) (ntot_le _)

theorem BlockInv.engineStep_weight_eq :
    (Machine.engineStep s).weight = BitVec.ofNat 64 (1023 - (s.kcnt.toNat + 1)) <<< 52 := by
  obtain ⟨-, hweight, -⟩ := h.engineStep_sums hb
  rw [hweight, weightPattern, ofNat_mul_two_pow]

end

/-- Settles O25: by BUSY, with the sums of R85 before and after a busy step. -/
theorem engineStepHalvesThenTests : Obligations.EngineStepHalvesThenTests := by
  intro s rest hr he hinv
  have h : BlockInv { s with events := rest } := hinv.withEvents rest
  refine ⟨_, step_of_engine hr he, engineEvent_src _, engineEvent_sign _, engineEvent_bexp _, engineEvent_uexp _,
    engineEvent_mfield _, engineEvent_inReg _, ⟨engineEvent_hn _, engineEvent_hd1 _, engineEvent_hs _⟩,
    fun hb => ?_, fun hb => ?_⟩
  · rw [engineEvent_of_idle { s with events := rest } hb]
    exact ⟨rfl, .refl s⟩
  · rw [engineEvent_of_busy { s with events := rest } hb]
    have hk : (engineStep { s with events := rest }).kcnt.toNat = s.kcnt.toNat + 1 := engineStep_kcnt_toNat (h.kcnt_lt hb)
    rw [hk]
    refine ⟨rfl, h.engineStep_fixedValue_w hb, h.engineStep_fixedValue_acc hb, rfl, rfl, h.engineStep_traceEntry_same hb,
      fun j hj => ?_, rfl⟩
    rw [engineStep_traceEntry]
    exact if_neg fun hcase => hj hcase.1

/-- Settles O27: by the patterns of R85 before and after the step. -/
theorem engineStepHasTheBitLevelForm : Obligations.EngineStepHasTheBitLevelForm := by
  intro s t rest hr he hb hinv hstep
  have h : BlockInv { s with events := rest } := hinv.withEvents rest
  rw [step_of_engine hr he, engineEvent_of_busy { s with events := rest } hb] at hstep
  obtain rfl := Host.Outcome.next.inj hstep
  exact ⟨h.engineStep_weight_eq hb, h.engineStep_mant_eq_or hb,
    (h.engineStep_traceEntry_same hb).trans (h.engineStep_mant_eq_or hb)⟩

/-! ### What the last step leaves -/

section
variable {s : State} (h : BlockInv s) (hd : s.status.done = true)
include h hd

/-- R87: after all NTOT steps the pattern holds the whole field. -/
theorem BlockInv.final_mant :
    s.mant = 0x3FF0000000000000 ||| (s.mfield.setWidth 64 <<< (52 - ntot s.status.fmt)) := by
  obtain ⟨-, hk⟩ := h.done_counts hd
  obtain ⟨hmant, -⟩ := h.sums (.inr hd)
  rw [hmant, cumulativePattern, hk, Nat.sub_self, pow_zero, Nat.div_one, ofNat_mul_two_pow, BitVec.ofNat_toNat]

theorem BlockInv.dec64_final_mant : dec64 s.mant = 1 + (s.mfield.toNat : ℚ) / 2 ^ ntot s.status.fmt := by
  obtain ⟨-, hk⟩ := h.done_counts hd
  obtain ⟨hmant, -, hacc, -, -⟩ := (partialSums_iff (h.fields (.inr hd)).mfield_lt hk.le).1 (h.sums (.inr hd))
  have hvalue := (fixedValue_acc_iff s.acc (hk.trans_le (ntot_le _))).2 hacc
  rw [hmant, accumulatorPatternsAreExact s.acc (by omega), hvalue, hk, partfrac, Nat.sub_self, pow_zero, Nat.div_one]

end

/-- Settles O31: the whole field is at most 2^NTOT - 1. -/
theorem finalMantissaIsInRange : Obligations.FinalMantissaIsInRange := by
  intro s h hd n
  have hvalue : dec64 s.mant = 1 + (s.mfield.toNat : ℚ) / 2 ^ n := h.dec64_final_mant hd
  have hmant := h.final_mant hd
  have hm : s.mfield.toNat + 1 ≤ 2 ^ n := (h.fields (.inr hd)).mfield_lt
  have hm' : (s.mfield.toNat : ℚ) + 1 ≤ 2 ^ n := by exact_mod_cast hm
  have hpos : (0 : ℚ) < 1 / 2 ^ n := by positivity
  have hle : (s.mfield.toNat : ℚ) / 2 ^ n + 1 / 2 ^ n ≤ 1 := by
    rwa [← add_div, div_le_one (by positivity)]
  have hnonneg : 0 ≤ (s.mfield.toNat : ℚ) / 2 ^ n := by positivity
  refine ⟨hvalue, by linarith, by linarith, by linarith, hmant, fun hf => ?_, fun hf => ?_⟩
  · have hfield : s.mfield.toNat < 2 ^ ntot .single := hf ▸ hm
    rw [ntot] at hfield
    rw [hmant, hf, enc64_one_add _ (by omega), ofNat_mul_two_pow, BitVec.ofNat_toNat]
    rfl
  · rw [hmant, hf]
    exact congrArg _ (BitVec.shiftLeft_zero _)

theorem expWidth_eq_bias (f : Format) : ((2 ^ expWidth f - 1 : Nat) : Int) = 2 * bias f + 1 := by cases f <;> rfl

/-- Settles O32: UEXP is BEXP - BIAS for every BEXP. -/
theorem specialExponentsAreNotSpecial : Obligations.SpecialExponentsAreNotSpecial := by
  intro s h hd
  obtain ⟨-, -, hbexp, huexp, -⟩ := h.fields (.inr hd)
  have hvalue : s.uexp.toInt = s.bexp.toNat - bias s.status.fmt := by rw [huexp, hbexp, sliceUexp_toInt]
  have hmax := expWidth_eq_bias s.status.fmt
  exact ⟨fun he => by omega, fun he => by omega, h.dec64_final_mant hd⟩

end Sys2Proof.Machine
end

section
/-! SUPPORT. Proofs about an accepted decomposition under every interleaving with the host (41_decompose.md R82, R85, R89,
R90): what the events leave is what as many ENGINE turns alone leave. -/

namespace Sys2Proof.Machine

/-! ### Turns of the ENGINE alone -/

theorem SameResults.symm {s t : State} (h : SameResults s t) : SameResults t s := by
  unfold SameResults at h ⊢
  simp only [h, and_self]

theorem SameDecomposition.symm {s t : State} (h : SameDecomposition s t) : SameDecomposition t s :=
  ⟨h.results.symm, h.busy.symm, h.done.symm, h.fmt.symm⟩

/-- The ENGINE reads nothing but the decomposition. -/
theorem SameDecomposition.engineStep {s t : State} (h : SameDecomposition s t) :
    SameDecomposition (engineStep s) (engineStep t) := by
  obtain ⟨⟨hsrc, hsign, hbexp, huexp, hmfield, hmant, hweight, hkcnt, htrace, hacc, hw⟩, hbusy, hdone, hfmt⟩ := h
  refine ⟨?_, ?_, ?_, (engineStep_fmt t).trans (hfmt.trans (engineStep_fmt s).symm)⟩
  · simp only [SameResults, engineStep_src, engineStep_sign, engineStep_bexp, engineStep_uexp, engineStep_mfield,
      engineStep_mant, engineStep_weight, engineStep_kcnt, engineStep_trace, engineStep_acc, engineStep_w, hsrc, hsign, hbexp,
      huexp, hmfield, hkcnt, htrace, hacc, hw, hfmt, and_self]
  · rw [engineStep_status, engineStep_status, hkcnt, hfmt]
    split
    exacts [rfl, hbusy]
  · rw [engineStep_status, engineStep_status, hkcnt, hfmt]
    split
    exacts [rfl, hdone]

theorem SameDecomposition.engineEvent {s t : State} (h : SameDecomposition s t) :
    SameDecomposition (engineEvent s) (engineEvent t) := by
  cases hb : s.status.busy with
  | false => rwa [engineEvent_of_idle s hb, engineEvent_of_idle t (h.busy.trans hb)]
  | true =>
    rw [engineEvent_of_busy s hb, engineEvent_of_busy t (h.busy.trans hb)]
    exact h.engineStep

theorem SameDecomposition.turns {s t : State} (h : SameDecomposition s t) (k : Nat) :
    SameDecomposition (Machine.engineEvent^[k] s) (Machine.engineEvent^[k] t) := by
  induction k generalizing s t with
  | zero => exact h
  | succ k ih => exact ih h.engineEvent

/-- Acceptance reads nothing but the operand. -/
theorem sameDecomposition_acceptDecomposition {f : Format} {s t : State}
    (h : latchSource f t.inReg = latchSource f s.inReg) :
    SameDecomposition (acceptDecomposition f s) (acceptDecomposition f t) := by
  refine ⟨?_, rfl, rfl, rfl⟩
  simp only [SameResults, acceptDecomposition_src, acceptDecomposition_sign, acceptDecomposition_bexp,
    acceptDecomposition_uexp, acceptDecomposition_mfield, h]
  trivial

/-! ### The decomposition of an operand -/

/-- The decomposition of the operand x, accepted after reset, after k turns of the ENGINE and no other event. -/
def undisturbed (f : Format) (x : Word) (k : Nat) : State :=
  engineEvent^[k] (acceptDecomposition f { State.reset with inReg := x })

theorem undisturbed_succ (f : Format) (x : Word) (k : Nat) : undisturbed f x (k + 1) = engineEvent (undisturbed f x k) :=
  Function.iterate_succ_apply' ..

theorem sameDecomposition_undisturbed {f : Format} {x y : Word} (h : latchSource f x = latchSource f y) (k : Nat) :
    SameDecomposition (undisturbed f x k) (undisturbed f y k) := by
  have haccept : SameDecomposition (acceptDecomposition f { State.reset with inReg := x })
      (acceptDecomposition f { State.reset with inReg := y }) := sameDecomposition_acceptDecomposition h.symm
  exact haccept.turns k

theorem blockInv_undisturbed (f : Format) (x : Word) (k : Nat) : BlockInv (undisturbed f x k) := by
  induction k with
  | zero =>
    have hreset : BlockInv { State.reset with inReg := x } :=
      (blockInv_reset []).congr rfl rfl rfl (.refl _) (blockInv_reset []).loader
    exact hreset.acceptDecomposition f
  | succ k ih =>
    rw [undisturbed_succ]
    exact ih.engineEvent

theorem pollingKeeps_undisturbed (f : Format) (x : Word) (k : Nat) :
    PollingKeeps (acceptDecomposition f { State.reset with inReg := x }) (undisturbed f x k) := by
  induction k with
  | zero => exact pollingKeeps_refl _
  | succ k ih =>
    rw [undisturbed_succ]
    exact ih.engineEvent

theorem undisturbed_fmt (f : Format) (x : Word) (k : Nat) : (undisturbed f x k).status.fmt = f :=
  (pollingKeeps_undisturbed f x k).fmt

theorem countsSteps_undisturbed (f : Format) (x : Word) (k : Nat) : CountsSteps (undisturbed f x k) :=
  (pollingKeeps_undisturbed f x k).counts (countsSteps_acceptDecomposition f _)

/-- A turn counts up to NTOT. -/
theorem CountsSteps.engineEvent_kcnt {s : State} (h : CountsSteps s) :
    (Machine.engineEvent s).kcnt.toNat = min (s.kcnt.toNat + 1) (ntot s.status.fmt) := by
  obtain ⟨hb, hk⟩ | ⟨hb, -, hk⟩ := h
  · rw [engineEvent_of_busy s hb, engineStep_kcnt_toNat hk, min_eq_left hk]
  · rw [engineEvent_of_idle s hb]
    omega

theorem undisturbed_kcnt (f : Format) (x : Word) (k : Nat) : (undisturbed f x k).kcnt.toNat = min k (ntot f) := by
  induction k with
  | zero => exact (Nat.zero_min _).symm
  | succ k ih =>
    rw [undisturbed_succ, (countsSteps_undisturbed f x k).engineEvent_kcnt, ih, undisturbed_fmt]
    omega

/-- R89: BUSY = 1 until the NTOT-th turn. -/
theorem undisturbed_busy_of_lt (f : Format) (x : Word) {k : Nat} (hk : k < ntot f) :
    (undisturbed f x k).status.busy = true := by
  have hkcnt := undisturbed_kcnt f x k
  obtain ⟨hb, -⟩ | ⟨-, -, hall⟩ := countsSteps_undisturbed f x k
  · exact hb
  · rw [undisturbed_fmt] at hall
    omega

/-- R89: from the NTOT-th turn on the decomposition is complete. -/
theorem undisturbed_complete (f : Format) (x : Word) {k : Nat} (hk : ntot f ≤ k) :
    (undisturbed f x k).status.busy = false ∧ (undisturbed f x k).status.done = true := by
  have hkcnt := undisturbed_kcnt f x k
  obtain ⟨-, hlt⟩ | ⟨hb, hd, -⟩ := countsSteps_undisturbed f x k
  · rw [undisturbed_fmt] at hlt
    omega
  · exact ⟨hb, hd⟩

/-- The turns after the NTOT-th do nothing. -/
theorem undisturbed_min (f : Format) (x : Word) (k : Nat) : undisturbed f x (min k (ntot f)) = undisturbed f x k := by
  induction k with
  | zero => rw [Nat.zero_min]
  | succ k ih =>
    obtain hk | hk := Nat.lt_or_ge k (ntot f)
    · rw [min_eq_left hk]
    · obtain ⟨hb, -⟩ := undisturbed_complete f x hk
      rw [undisturbed_succ, engineEvent_of_idle _ hb, ← ih, min_eq_right hk, min_eq_right (Nat.le_succ_of_le hk)]

/-! ### Any events -/

section
variable {n : Nat} {rest : List Event}

theorem noDecomposition.of_cons {e : Event} (h : noDecomposition (e :: rest)) : noDecomposition rest :=
  ⟨fun hm => h.1 (List.mem_cons_of_mem e hm), fun hm => h.2 (List.mem_cons_of_mem e hm)⟩

theorem noDecomposition_afterTurns_of_engine (h : noDecomposition (afterTurns n (.engine :: rest))) :
    noDecomposition (afterTurns (n - 1) rest) := by
  cases n with
  | zero =>
    rw [afterTurns_zero] at h ⊢
    exact h.of_cons
  | succ n => exact h

theorem noDecomposition_afterTurns_of_host {tr : Transaction} (h : noDecomposition (afterTurns n (.host tr :: rest))) :
    noDecomposition (afterTurns n rest) := by
  cases n with
  | zero =>
    rw [afterTurns_zero] at h ⊢
    exact h.of_cons
  | succ n => exact h

end

@[simp] theorem engineTurns_engine (rest : List Event) : engineTurns (.engine :: rest) = engineTurns rest + 1 :=
  List.count_cons_self

@[simp] theorem engineTurns_host (tr : Transaction) (rest : List Event) :
    engineTurns (.host tr :: rest) = engineTurns rest := List.count_cons_of_ne (by simp)

/-- The next n turns of the ENGINE are all steps. -/
def OwesSteps (n : Nat) (s : State) : Prop := ∀ j < n, (engineEvent^[j] s).status.busy = true

theorem OwesSteps.busy {n : Nat} {s : State} (h : OwesSteps n s) (hn : 0 < n) : s.status.busy = true := h 0 hn

theorem OwesSteps.engineEvent {n : Nat} {s : State} (h : OwesSteps n s) : OwesSteps (n - 1) (Machine.engineEvent s) :=
  fun j hj => h (j + 1) (by omega)

theorem owesSteps_undisturbed (f : Format) (x : Word) : OwesSteps (ntot f) (undisturbed f x 0) :=
  fun _ hj => undisturbed_busy_of_lt f x hj

/-- A transaction leaves the decomposition alone while n steps are owed, and after them if it is no DECS and no DECD. -/
theorem HostEffect.sameDecomposition_of_owed {s t : State} {tr : Transaction} {rest : List Event} {n : Nat}
    (h : HostEffect s tr t) (hbusy : 0 < n → s.status.busy = true)
    (hdec : noDecomposition (afterTurns n (.host tr :: rest))) : SameDecomposition s t := by
  obtain hsame | ⟨hidle, f, rfl, -⟩ := h.sameDecomposition_or_accepted
  · exact hsame
  · cases n with
    | zero => exact absurd List.mem_cons_self (hdec.not_mem f)
    | succ n => cases hidle.symm.trans (hbusy n.succ_pos)

theorem SameDecomposition.withEvents {s t : State} (h : SameDecomposition s t) (events : List Event) :
    SameDecomposition s { t with events := events } :=
  ⟨h.results, h.busy, h.done, h.fmt⟩

/-- R82, R131: what any events leave of the decomposition of s is what their ENGINE turns alone leave. -/
theorem run_sameDecomposition_turns {s u : State} {evs : List Event} {n : Nat} (hr : u.resetSeen = true)
    (he : u.events = evs) (hreset : noReset evs) (hdec : noDecomposition (afterTurns n evs)) (howes : OwesSteps n s)
    (hsame : SameDecomposition s u) :
    ∃ v, steps evs.length u = .next v ∧ SameDecomposition (engineEvent^[engineTurns evs] s) v := by
  induction evs generalizing s u n with
  | nil => exact ⟨u, rfl, hsame⟩
  | cons e rest ih =>
    have hreset' : noReset rest := fun hm => hreset (List.mem_cons_of_mem e hm)
    cases e with
    | reset => exact absurd List.mem_cons_self hreset
    | engine =>
      have hstep := step_of_engine hr he
      obtain ⟨v, hv, hturns⟩ := ih (step_resetSeen hstep) (engineEvent_events _) hreset'
        (noDecomposition_afterTurns_of_engine hdec) howes.engineEvent (hsame.withEvents rest).engineEvent
      refine ⟨v, (steps_succ_of_step hstep _).trans hv, ?_⟩
      rwa [engineTurns_engine, Function.iterate_succ_apply]
    | host tr =>
      obtain ⟨t, ht, heff⟩ := exec_decodeBus_effect tr { u with events := rest }
      have hstep := (step_of_host hr he).trans ht
      have hkept := heff.sameDecomposition_of_owed (fun hn => hsame.busy.trans (howes.busy hn)) hdec
      obtain ⟨v, hv, hturns⟩ := ih (step_resetSeen hstep) heff.events_eq hreset'
        (noDecomposition_afterTurns_of_host hdec) howes ((hsame.withEvents rest).trans hkept)
      refine ⟨v, (steps_succ_of_step hstep _).trans hv, ?_⟩
      rwa [engineTurns_host]

section
variable {f : Format} {s t u : State} {evs : List Event} (hb : s.status.busy = false) (hr : s.resetSeen = true)
  (ht : exec (decInstr f) s = .next t) (hreset : noReset evs) (hdec : noDecomposition (afterTurns (ntot f) evs))
include hb ht

theorem eq_acceptDecomposition : t = acceptDecomposition f s :=
  Host.Outcome.next.inj (ht.symm.trans (exec_decInstr_of_idle f hb))

include hr hreset hdec

theorem acceptance_run : ∃ u, steps evs.length { t with events := evs } = .next u
    ∧ SameDecomposition (undisturbed f s.inReg (engineTurns evs)) u := by
  obtain rfl := eq_acceptDecomposition hb ht
  have hsame : SameDecomposition (undisturbed f s.inReg 0) (acceptDecomposition f s) :=
    sameDecomposition_acceptDecomposition rfl
  exact run_sameDecomposition_turns hr rfl hreset hdec (owesSteps_undisturbed f s.inReg) (hsame.withEvents evs)

theorem sameDecomposition_of_acceptance_run (hu : steps evs.length { t with events := evs } = .next u) :
    SameDecomposition (undisturbed f s.inReg (engineTurns evs)) u := by
  obtain ⟨v, hv, hsame⟩ := acceptance_run hb hr ht hreset hdec
  obtain rfl := Host.Outcome.next.inj (hv.symm.trans hu)
  exact hsame

end

/-! ### The statements -/

theorem latchSource_congr {f : Format} {x y : Word} (hs : f = .single → x.toNat % 2 ^ 32 = y.toNat % 2 ^ 32)
    (hd : f = .double → x = y) : latchSource f x = latchSource f y := by
  cases f with
  | single =>
    apply BitVec.eq_of_toNat_eq
    rw [latchSource_single_toNat, latchSource_single_toNat, hs rfl]
  | double => exact hd rfl

/-- Settles O22: both runs leave what equally many ENGINE turns alone leave of the one latched operand. -/
theorem decompositionDependsOnTheOperandOnly : Obligations.DecompositionDependsOnTheOperandOnly := by
  intro f s s' t t' u u' evs evs' hb hb' hr hr' hs hd ht ht' hreset hreset' hdec hdec' hturns hu hu'
  have hrun := sameDecomposition_of_acceptance_run hb hr ht hreset hdec hu
  have hrun' := sameDecomposition_of_acceptance_run hb' hr' ht' hreset' hdec' hu'
  rw [← undisturbed_min] at hrun hrun'
  rw [← hturns] at hrun'
  have hoperand := sameDecomposition_undisturbed (latchSource_congr hs hd) (min (engineTurns evs) (ntot f))
  obtain ⟨hresults, hbusy, hdone, hfmt⟩ := hrun.symm.trans (hoperand.trans hrun')
  exact ⟨hresults, hbusy, hdone, hfmt⟩

theorem CountsSteps.busy_or_done {s : State} (h : CountsSteps s) : s.status.busy = true ∨ s.status.done = true := by
  obtain ⟨hb, -⟩ | ⟨-, hd, -⟩ := h
  · exact .inl hb
  · exact .inr hd

/-- The sums and the clear part of TRACE pass to a state with the same decomposition, whatever its loader holds. -/
theorem SameDecomposition.sums {s t : State} (h : SameDecomposition s t) (hinv : BlockInv s) (hs : CountsSteps s) :
    PartialSums t ∧ ∀ j, t.kcnt.toNat < j → j ≤ 52 → traceEntry t.trace j = 0 := by
  have hclear : BlockInv { t with hn := 0, hd1 := 0, hs := 0 } :=
    hinv.congr h.busy h.done h.fmt h.results (loaderConsistent_clear t)
  refine ⟨hclear.sums ?_, hclear.trace_clear⟩
  show t.status.busy = true ∨ t.status.done = true
  rw [h.busy, h.done]
  exact hs.busy_or_done

/-- Settles O28: the sums of the undisturbed decomposition, which meets the invariant, are those of every run. -/
theorem partialSumsUnderEveryInterleaving : Obligations.PartialSumsUnderEveryInterleaving := by
  intro f s t u evs hb hr ht hreset hdec hu k
  have hk : k ≤ ntot f := min_le_right ..
  have hrun := sameDecomposition_of_acceptance_run hb hr ht hreset hdec hu
  rw [← undisturbed_min] at hrun
  obtain rfl := eq_acceptDecomposition hb ht
  have hlatched := pollingKeeps_undisturbed f s.inReg k
  have hm : (acceptDecomposition f s).mfield.toNat < 2 ^ ntot f := sliceMfield_lt f _
  obtain ⟨⟨hmant, hweight, hacc, hw, htrace⟩, hclear⟩ :=
    hrun.sums (blockInv_undisturbed f s.inReg k) (countsSteps_undisturbed f s.inReg k)
  obtain ⟨hsrc, hsign, hbexp, huexp, hmfield, -, -, hkcnt, -⟩ := hrun.results
  have hfmt : u.status.fmt = f := hrun.fmt.trans hlatched.fmt
  have hkcnt : u.kcnt.toNat = k := by rw [hkcnt, undisturbed_kcnt, min_eq_left hk]
  have hmfield : u.mfield = (acceptDecomposition f s).mfield := hmfield.trans hlatched.mfield
  rw [hfmt, hkcnt, hmfield] at hmant hacc htrace
  rw [hkcnt] at hweight hw hclear
  refine ⟨hkcnt, hfmt, hsrc.trans hlatched.src, hsign.trans hlatched.sign, hbexp.trans hlatched.bexp,
    huexp.trans hlatched.uexp, hmfield, hacc, ?_, hw, hmant, hweight, htrace, hclear⟩
  rw [hacc, partfrac_eq_sum hm hk (ntot_le f)]
  rfl

/-- Settles O29: by what the same number of turns leaves undisturbed; with fewer than NTOT no event comes after the last step. -/
theorem completesAfterExactlyNtotSteps : Obligations.CompletesAfterExactlyNtotSteps := by
  intro f s t evs hb hr ht hreset
  obtain ⟨u, hu, -⟩ := steps_keep (P := fun _ => True) (fun _ _ _ _ => trivial) evs.length
    (s := { t with events := evs }) (by rw [eq_acceptDecomposition hb ht]; exact hr) trivial
  refine ⟨u, hu, fun hlt => ?_, fun hge hdec => ?_⟩
  · have hnone : noDecomposition (afterTurns (ntot f) evs) := by
      rw [afterTurns_of_lt _ _ hlt]
      exact ⟨List.not_mem_nil, List.not_mem_nil⟩
    have hrun := sameDecomposition_of_acceptance_run hb hr ht hreset hnone hu
    have hbusy := undisturbed_busy_of_lt f s.inReg hlt
    obtain ⟨-, hdone⟩ := (blockInv_undisturbed f s.inReg _).busy_counts hbusy
    exact ⟨hrun.busy.trans hbusy, hrun.done.trans hdone⟩
  · have hrun := sameDecomposition_of_acceptance_run hb hr ht hreset hdec hu
    obtain ⟨hidle, hdone⟩ := undisturbed_complete f s.inReg hge
    obtain ⟨-, -, -, -, -, -, -, hkcnt, -⟩ := hrun.results
    refine ⟨hrun.busy.trans hidle, hrun.done.trans hdone, ?_⟩
    rw [hkcnt, undisturbed_kcnt, min_eq_right hge]

end Sys2Proof.Machine
end

section
/-! SUPPORT. Proofs of what one hex command does (42_hex_encode.md R93, R94, R96, R97, R101): HEXCLR, HEXDIG, and HEXEND
with the value of Pack (R98). -/

namespace Sys2Proof.Machine

/-! ### HEXCLR and HEXDIG -/

/-- Settles O35: by evaluating `exec`, which does not look at BUSY. -/
theorem hexclrClearsTheLoader : Obligations.HexclrClearsTheLoader := fun _ => rfl

theorem exec_hexdig_of_none {c : BitVec 8} (s : State) (hc : hexval c = none) :
    exec (.hexdig c) s = .next (s.raise .baddig) := by
  rw [exec, execHexdig, hc]

theorem exec_hexdig_of_some {c : BitVec 8} {d : BitVec 4} (s : State) (hc : hexval c = some d) :
    exec (.hexdig c) s = .next (pushDigit d s) := by
  rw [exec, execHexdig, hc]

/-- Settles O36: the one case split is that of `hexval`. -/
theorem hexdigPushesADigit : Obligations.HexdigPushesADigit := by
  refine fun s c => ⟨exec_hexdig_of_none s, fun d hc => ⟨pushDigit d s, exec_hexdig_of_some s hc, pushDigit_hs_toNat d s,
    pushDigit_hn_toNat d s, ?_, rfl⟩⟩
  exact if_congr (BitVec.toNat_inj (y := 0)) rfl rfl

/-- Settles O37: the refusal is R94's, and no flag is cleared but by a write to STATUS or a reset. -/
theorem hexdigRefusesOtherCodes : Obligations.HexdigRefusesOtherCodes :=
  ⟨fun s _ => exec_hexdig_of_none s, stickyFlag .baddig⟩

/-! ### Pack -/

section
variable {hn : BitVec 5} (hd1 : BitVec 4) (hs : Word)

theorem packHex_of_zero (h : hn.toNat = 0) : packHex hn hd1 hs = 0 := if_pos h

theorem packHex_of_even (h0 : hn.toNat ≠ 0) (h : hn.toNat % 2 = 0) : packHex hn hd1 hs = hs := by
  rw [packHex, if_neg h0, if_neg (by omega), if_pos h]

theorem packHex_of_saturated (h : hn.toNat = 17) : packHex hn hd1 hs = hs := by
  rw [packHex, if_neg (by omega), if_pos h]

/-- R98: the leftover first digit is the high nibble of its byte, so it stands one place above the others. -/
theorem packHex_toNat_of_odd (h : hn.toNat % 2 = 1) (hle : hn.toNat ≤ 15) :
    (packHex hn hd1 hs).toNat = hd1.toNat * 2 ^ (4 * hn.toNat) + hs.toNat % 2 ^ (4 * (hn.toNat - 1)) := by
  have hd := hd1.isLt
  rw [packHex, if_neg (by omega), if_neg (by omega), if_neg (by omega)]
  generalize hn.toNat = n at h hle
  have hpow : 2 ^ (4 * n) ≤ 2 ^ 60 := Nat.pow_le_pow_right (by decide) (by omega)
  have hlow : hs.toNat % 2 ^ (4 * (n - 1)) < 2 ^ (4 * n) :=
    (Nat.mod_lt _ (by positivity)).trans (Nat.pow_lt_pow_right (by decide) (by omega))
  have hhigh : hd1.toNat * 2 ^ (4 * n) < 2 ^ 64 :=
    calc hd1.toNat * 2 ^ (4 * n) ≤ hd1.toNat * 2 ^ 60 := Nat.mul_le_mul_left _ hpow
      _ < 2 ^ 64 := by omega
  rw [BitVec.toNat_or, BitVec.toNat_shiftLeft, BitVec.toNat_setWidth, BitVec.toNat_ofNat,
    Nat.mod_eq_of_lt (a := hd1.toNat) (by omega), Nat.shiftLeft_eq, Nat.mod_eq_of_lt hhigh, Nat.mod_eq_of_lt (by omega),
    ← Nat.shiftLeft_eq, ← Nat.shiftLeft_add_eq_or_of_lt hlow]

end

/-- Settles O38: one clause of Pack each. -/
theorem hexendPacksTheDigits : Obligations.HexendPacksTheDigits := fun s =>
  ⟨{ s with inReg := packHex s.hn s.hd1 s.hs }, rfl, packHex_of_zero _ _, packHex_of_saturated _ _,
    fun heven hlow _ => packHex_of_even _ _ (by omega) heven, packHex_toNat_of_odd _ _, rfl⟩

/-! ### What the three commands leave unchanged -/

/-- Settles O41: HEXDIG is the only one with two outcomes. -/
theorem hexCommandsFrame : Obligations.HexCommandsFrame := by
  rintro s c i (rfl | rfl | rfl)
  · exact ⟨_, rfl, .refl s, ⟨rfl, rfl, rfl⟩, rfl, fun _ => rfl, nofun⟩
  · cases hc : hexval c with
    | none =>
      exact ⟨_, exec_hexdig_of_none s hc, .refl s, ⟨rfl, rfl, rfl⟩, rfl, fun _ => rfl, nofun⟩
    | some d =>
      exact ⟨_, exec_hexdig_of_some s hc, .refl s, ⟨rfl, rfl, rfl⟩, rfl, fun _ => rfl, nofun⟩
  · exact ⟨_, rfl, .refl s, ⟨rfl, rfl, rfl⟩, rfl, fun h => absurd rfl h, fun _ => ⟨⟨rfl, rfl, rfl⟩, rfl⟩⟩

end Sys2Proof.Machine
end

section
/-! SUPPORT. Proofs about digit strings (42_hex_encode.md): the number of a string (00_scope.md R10), the backward scan
of the source (R92), and Pack of the loader that holds the string (R98, R99). -/

namespace Sys2Proof.Machine

/-! ### The number of a digit string -/

theorem hexnum_concat (ds : List (BitVec 4)) (d : BitVec 4) : hexnum (ds ++ [d]) = 16 * hexnum ds + d.toNat := by
  rw [hexnum, List.foldl_concat, hexnum]

theorem hexnum_append (ds es : List (BitVec 4)) : hexnum (ds ++ es) = hexnum ds * 16 ^ es.length + hexnum es := by
  induction es using List.reverseRecOn with
  | nil => simp [hexnum]
  | append_singleton es e ih =>
    rw [← List.append_assoc, hexnum_concat, hexnum_concat, ih, List.length_append, List.length_singleton, pow_succ]
    ring

theorem hexnum_lt (ds : List (BitVec 4)) : hexnum ds < 16 ^ ds.length := by
  induction ds using List.reverseRecOn with
  | nil => decide
  | append_singleton ds d ih =>
    have hd := d.isLt
    rw [hexnum_concat, List.length_append, List.length_singleton, pow_succ]
    omega

/-- The number mod 16^k is that of the last k digits. -/
theorem hexnum_mod (ds : List (BitVec 4)) (k : Nat) : hexnum ds % 16 ^ k = hexnum (ds.drop (ds.length - k)) := by
  have hlt := hexnum_lt (ds.drop (ds.length - k))
  obtain hk | hk := Nat.le_total ds.length k
  · rw [Nat.sub_eq_zero_of_le hk, List.drop_zero] at hlt ⊢
    exact Nat.mod_eq_of_lt (hlt.trans_le (Nat.pow_le_pow_right (by decide) hk))
  · have hlen : (ds.drop (ds.length - k)).length = k := by rw [List.length_drop, Nat.sub_sub_self hk]
    rw [hlen] at hlt
    conv_lhs => rw [← List.take_append_drop (ds.length - k) ds, hexnum_append, hlen]
    rw [Nat.mul_add_mod', Nat.mod_eq_of_lt hlt]

/-! ### The backward scan

`refBytes` reads the string from its end, so these lemmas are about the reversed string. -/

/-- In whole pairs, or with more digits than n bytes hold, the bytes are the number of the last 2n digits. -/
theorem bytesValue_refBytes_of_pairs (n : Nat) (rs : List (BitVec 4)) (h : rs.length % 2 = 0 ∨ 2 * n ≤ rs.length) :
    bytesValue (refBytes n rs) = hexnum (rs.take (2 * n)).reverse := by
  induction n, rs using refBytes.induct with
  | case1 rs => rfl
  | case2 n => rfl
  | case3 n d => simp at h; omega
  | case4 n d e rest ih =>
    have hrest : rest.length % 2 = 0 ∨ 2 * n ≤ rest.length := by simp only [List.length_cons] at h; omega
    rw [refBytes, bytesValue, ih hrest, Nat.mul_succ, List.take_succ_cons, List.take_succ_cons, List.reverse_cons,
      List.reverse_cons, hexnum_concat, hexnum_concat]
    omega

/-- A first digit with whole pairs after it and a byte left for it stands one place higher, in its byte's high nibble. -/
theorem bytesValue_refBytes_of_leftover (n : Nat) (rs : List (BitVec 4)) (d : BitVec 4) (heven : rs.length % 2 = 0)
    (hlt : rs.length < 2 * n) :
    bytesValue (refBytes n (rs ++ [d])) = d.toNat * 16 ^ (rs.length + 1) + hexnum rs.reverse := by
  induction n, rs using refBytes.induct with
  | case1 rs => omega
  | case2 n =>
    show 16 * d.toNat + 256 * 0 = d.toNat * 16 ^ 1 + 0
    omega
  | case3 n e => cases heven
  | case4 n e f rest ih =>
    simp only [List.length_cons] at heven hlt
    rw [List.cons_append, List.cons_append, refBytes, bytesValue, ih (by omega) (by omega), List.reverse_cons,
      List.reverse_cons, hexnum_concat, hexnum_concat, List.length_cons, List.length_cons, pow_succ _ (_ + 1 + 1),
      pow_succ _ (_ + 1), ← Nat.mul_assoc, ← Nat.mul_assoc]
    omega

theorem refPack_of_pairs (ds : List (BitVec 4)) (h : ds.length % 2 = 0 ∨ 16 ≤ ds.length) :
    (refPack ds).toNat = hexnum ds % 2 ^ 64 := by
  have hlast : (ds.reverse.take (2 * 8)).reverse = ds.drop (ds.length - 16) := by
    rw [List.reverse_take, List.reverse_reverse, List.length_reverse]
  rw [refPack, bytesValue_refBytes_of_pairs 8 _ (by rwa [List.length_reverse]), hlast, ← hexnum_mod, BitVec.toNat_ofNat,
    show (2 : Nat) ^ 64 = 16 ^ 16 by decide, Nat.mod_mod]

theorem refPack_cons_of_leftover (d : BitVec 4) (ds : List (BitVec 4)) (heven : ds.length % 2 = 0) (hlt : ds.length < 16) :
    (refPack (d :: ds)).toNat = d.toNat * 16 ^ (ds.length + 1) + hexnum ds := by
  have hd := d.isLt
  have hnum := hexnum_lt ds
  have hpow : 16 ^ (ds.length + 1) ≤ 16 ^ 15 := Nat.pow_le_pow_right (by decide) (by omega)
  have hfirst : d.toNat * 16 ^ (ds.length + 1) ≤ d.toNat * 16 ^ 15 := Nat.mul_le_mul_left _ hpow
  rw [refPack, List.reverse_cons, bytesValue_refBytes_of_leftover 8 _ d (by rwa [List.length_reverse])
    (by rwa [List.length_reverse]), List.reverse_reverse, List.length_reverse, BitVec.toNat_ofNat, Nat.mod_eq_of_lt]
  rw [pow_succ] at hpow
  omega

/-! ### The loader -/

/-- The hex loader holds the digit string ds (42_hex_encode.md R95). -/
structure LoaderHolds (ds : List (BitVec 4)) (s : State) : Prop where
  hn : s.hn.toNat = min ds.length 17
  hd1 : s.hd1 = ds.headD 0
  hs : s.hs.toNat = hexnum ds % 2 ^ 64

theorem loaderHolds_nil {s : State} (h : s.hn = 0 ∧ s.hd1 = 0 ∧ s.hs = 0) : LoaderHolds [] s := by
  obtain ⟨hn, hd1, hs⟩ := h
  exact ⟨congrArg BitVec.toNat hn, hd1, congrArg BitVec.toNat hs⟩

section
variable {ds : List (BitVec 4)} {s : State} (h : LoaderHolds ds s)
include h

theorem LoaderHolds.congr {t : State} (hsame : SameLoader s t) : LoaderHolds ds t := by
  obtain ⟨hn, hd1, hs⟩ := hsame
  exact ⟨hn ▸ h.hn, hd1.trans h.hd1, hs ▸ h.hs⟩

theorem LoaderHolds.pushDigit (d : BitVec 4) : LoaderHolds (ds ++ [d]) (pushDigit d s) where
  hn := by
    rw [pushDigit_hn_toNat, h.hn, List.length_append, List.length_singleton]
    omega
  hd1 := by
    rw [pushDigit_hd1, h.hn, h.hd1]
    cases ds with
    | nil => rfl
    | cons e es => exact if_neg (by rw [List.length_cons]; omega)
  hs := by
    rw [pushDigit_hs_toNat, h.hs, hexnum_concat]
    omega

/-- R99: Pack of the loader is what the backward scan gives. -/
theorem LoaderHolds.packHex_eq_refPack : packHex s.hn s.hd1 s.hs = refPack ds := by
  have hn := h.hn
  apply BitVec.eq_of_toNat_eq
  by_cases hpairs : ds.length % 2 = 0 ∨ 16 ≤ ds.length
  · rw [refPack_of_pairs ds hpairs, ← h.hs]
    by_cases h17 : s.hn.toNat = 17
    · rw [packHex_of_saturated _ _ h17]
    by_cases h0 : s.hn.toNat = 0
    · obtain rfl : ds = [] := List.length_eq_zero_iff.1 (by omega)
      rw [packHex_of_zero _ _ h0, h.hs]
      rfl
    · rw [packHex_of_even _ _ h0 (by omega)]
  · cases ds with
    | nil => exact absurd (.inl rfl) hpairs
    | cons d ds =>
      rw [List.length_cons] at hn hpairs
      have hlen : s.hn.toNat = ds.length + 1 := by omega
      have hlast : hexnum (d :: ds) % 16 ^ ds.length = hexnum ds := by
        rw [hexnum_mod, List.length_cons, Nat.add_sub_cancel_left, List.drop_one, List.tail_cons]
      rw [packHex_toNat_of_odd _ _ (by omega) (by omega), refPack_cons_of_leftover d ds (by omega) (by omega), h.hs, h.hd1,
        hlen, Nat.add_sub_cancel, pow_mul, pow_mul, show 2 ^ 4 = 16 by rfl, Nat.mod_mod_of_dvd, hlast]
      · rfl
      · rw [show (2 : Nat) ^ 64 = 16 ^ 16 by decide]
        exact pow_dvd_pow 16 (by omega)

end

end Sys2Proof.Machine
end

section
/-! SUPPORT. Proofs of what runs leave of a digit string, under every interleaving with the ENGINE: the loader after its
HEXCLR and HEXDIGs (42_hex_encode.md R95), and IN after HEXSTR (R99). -/

namespace Sys2Proof.Machine

/-! ### Runs without reset -/

theorem steps_events {n : Nat} {s u : State} (h : steps n s = .next u) : u.events = s.events.drop n := by
  induction n generalizing s with
  | zero =>
    obtain rfl := Host.Outcome.next.inj h
    rfl
  | succ n ih =>
    cases ht : step s with
    | fault => rw [steps, ht] at h; cases h
    | refused => rw [steps, ht] at h; cases h
    | next t =>
      rw [steps_succ_of_step ht] at h
      rw [ih h, step_events ht, List.drop_tail]

/-- A run of all of some events, none a reset, completes with what every step keeps. -/
theorem run_keeps {P : State → Prop} (hstep : ∀ s t, noReset s.events → P s → step s = .next t → P t) {s : State}
    {evs : List Event} (hr : s.resetSeen = true) (hreset : noReset evs) (hP : P { s with events := evs }) :
    ∃ u, steps evs.length { s with events := evs } = .next u ∧ u.events = [] ∧ P u := by
  obtain ⟨u, hu, -, hPu⟩ := steps_keep (P := fun t => noReset t.events ∧ P t)
    (fun _ _ ⟨hn, hPt⟩ ht => ⟨step_noReset ht hn, hstep _ _ hn hPt ht⟩) evs.length (s := { s with events := evs }) hr
    ⟨hreset, hP⟩
  exact ⟨u, hu, (steps_events hu).trans (List.drop_length ..), hPu⟩

/-! ### What one transaction does to the loader -/

theorem isLoaderTransaction_hexclr : isLoaderTransaction (asmCommand .hexclr) = true :=
  (isLoaderTransaction_iff _).2 (.inl rfl)

theorem isLoaderTransaction_hexdig (c : BitVec 8) : isLoaderTransaction (asmCommand (.hexdig c)) = true :=
  (isLoaderTransaction_iff _).2 (.inr ⟨c, rfl⟩)

theorem loaderHolds_of_hexclr {s t : State} (h : exec (decodeBus (asmCommand .hexclr)) s = .next t) : LoaderHolds [] t := by
  obtain rfl := Host.Outcome.next.inj ((exec_decodeBus_command .hexclr s).symm.trans h)
  exact loaderHolds_nil ⟨rfl, rfl, rfl⟩

/-- A HEXDIG appends its character's digit; a refused character is no part of the string (42_hex_encode.md R96). -/
theorem LoaderHolds.hexdig {held : List (BitVec 4)} {s t : State} {c : BitVec 8} (hs : LoaderHolds held s)
    (h : exec (decodeBus (asmCommand (.hexdig c))) s = .next t) : LoaderHolds (held ++ digitsOf [c]) t := by
  have hexec : exec (.hexdig c) s = .next t := (exec_decodeBus_command (.hexdig c) s).symm.trans h
  cases hc : hexval c with
  | none =>
    obtain rfl := Host.Outcome.next.inj ((exec_hexdig_of_none s hc).symm.trans hexec)
    rw [digitsOf, List.filterMap_cons_none hc, List.filterMap_nil, List.append_nil]
    exact hs.congr ⟨rfl, rfl, rfl⟩
  | some d =>
    obtain rfl := Host.Outcome.next.inj ((exec_hexdig_of_some s hc).symm.trans hexec)
    rw [digitsOf, List.filterMap_cons_some hc, List.filterMap_nil]
    exact hs.pushDigit d

theorem HostEffect.sameLoader {s t : State} {tr : Transaction} (h : HostEffect s tr t)
    (htr : isLoaderTransaction tr = false) : SameLoader s t := by
  cases h with
  | hexclr d hd =>
    obtain rfl := eq_data_of_decodeCommand hd
    cases isLoaderTransaction_hexclr.symm.trans htr
  | digit d c v hd hc =>
    obtain rfl := eq_data_of_decodeCommand hd
    cases (isLoaderTransaction_hexdig c).symm.trans htr
  | read a d => exact ⟨noteRead_hn s a, noteRead_hd1 s a, noteRead_hs s a⟩
  | _ => exact ⟨rfl, rfl, rfl⟩

/-! ### The loader under any events -/

/-- Once the pending events have run, the loader holds ds: a HEXCLR is pending with the characters of ds after it, or the
loader holds the first digits of ds and the characters of the others are pending. -/
inductive LoaderWillHold (ds : List (BitVec 4)) (s : State) : Prop where
  | cleared (earlier : List Transaction) (chars : List (BitVec 8))
      (htrs : loaderTransactions s.events = earlier ++ asmCommand .hexclr :: chars.map (fun c => asmCommand (.hexdig c)))
      (hds : digitsOf chars = ds)
  | extended (held : List (BitVec 4)) (chars : List (BitVec 8)) (hheld : LoaderHolds held s)
      (htrs : loaderTransactions s.events = chars.map (fun c => asmCommand (.hexdig c)))
      (hds : held ++ digitsOf chars = ds)

section
variable {ds : List (BitVec 4)} {s t : State}

theorem LoaderWillHold.holds (h : LoaderWillHold ds s) (hnone : loaderTransactions s.events = []) : LoaderHolds ds s := by
  cases h with
  | cleared earlier chars htrs => simp [hnone] at htrs
  | extended held chars hheld htrs hds =>
    obtain rfl : chars = [] := List.map_eq_nil_iff.1 (htrs.symm.trans hnone)
    rwa [← hds, digitsOf, List.filterMap_nil, List.append_nil]

/-- An event that writes nothing to the loader. -/
theorem LoaderWillHold.congr (h : LoaderWillHold ds s) (hsame : SameLoader s t)
    (htrs : loaderTransactions t.events = loaderTransactions s.events) : LoaderWillHold ds t := by
  cases h with
  | cleared earlier chars hs hds => exact .cleared earlier chars (htrs.trans hs) hds
  | extended held chars hheld hs hds => exact .extended held chars (hheld.congr hsame) (htrs.trans hs) hds

/-- The next of the transactions that write the loader. -/
theorem LoaderWillHold.run_loaderTransaction {tr : Transaction} {rest : List Event} (h : LoaderWillHold ds s)
    (htrs : loaderTransactions s.events = tr :: loaderTransactions rest) (hrest : t.events = rest)
    (hexec : exec (decodeBus tr) { s with events := rest } = .next t) : LoaderWillHold ds t := by
  subst hrest
  cases h with
  | cleared earlier chars hs hds =>
    cases earlier with
    | nil =>
      obtain ⟨rfl, hlater⟩ := List.cons.inj (htrs.symm.trans hs)
      exact .extended [] chars (loaderHolds_of_hexclr hexec) hlater hds
    | cons tr' earlier =>
      obtain ⟨-, hlater⟩ := List.cons.inj (htrs.symm.trans hs)
      exact .cleared earlier chars hlater hds
  | extended held chars hheld hs hds =>
    cases chars with
    | nil => cases htrs.symm.trans hs
    | cons c chars =>
      obtain ⟨rfl, hlater⟩ := List.cons.inj (htrs.symm.trans hs)
      have hheld' : LoaderHolds held { s with events := t.events } := hheld.congr ⟨rfl, rfl, rfl⟩
      refine .extended _ chars (hheld'.hexdig hexec) hlater ?_
      rw [List.append_assoc, digitsOf, digitsOf, ← List.filterMap_append, List.singleton_append]
      exact hds

theorem LoaderWillHold.step (hreset : noReset s.events) (h : LoaderWillHold ds s) (hstep : step s = .next t) :
    LoaderWillHold ds t := by
  obtain ⟨rest, he, -⟩ | ⟨hr, tr, rest, he, heff⟩ | ⟨-, rest, he, rfl⟩ := step_cases s t hstep
  · exact absurd (he ▸ List.mem_cons_self) hreset
  · have hrest : t.events = rest := heff.events_eq
    cases htr : isLoaderTransaction tr with
    | true =>
      refine h.run_loaderTransaction ?_ hrest ((step_of_host hr he).symm.trans hstep)
      rw [he, loaderTransactions_host, if_pos htr]
    | false =>
      refine h.congr (heff.sameLoader htr) ?_
      rw [he, hrest, loaderTransactions_host, htr, if_neg Bool.false_ne_true]
  · refine h.congr ⟨engineEvent_hn _, engineEvent_hd1 _, engineEvent_hs _⟩ ?_
    obtain he | ⟨he, rfl⟩ := he
    · rw [engineEvent_events, he, loaderTransactions_engine]
    · rw [engineEvent_events, he]

end

/-- Settles O39: every step keeps `LoaderWillHold`, and nothing is pending after the last event. -/
theorem loaderHoldsTheDigitString : Obligations.LoaderHoldsTheDigitString := by
  intro s u chars evs hr hreset htrs hu
  have hstart : LoaderWillHold (digitsOf chars) { s with events := evs } := by
    obtain ⟨earlier, htrs⟩ | ⟨hn, hd1, hs, htrs⟩ := htrs
    · exact .cleared earlier chars htrs rfl
    · exact .extended [] chars (loaderHolds_nil ⟨hn, hd1, hs⟩) htrs rfl
  obtain ⟨v, hv, hnone, hwill⟩ := run_keeps (fun _ _ => LoaderWillHold.step) hr hreset hstart
  obtain rfl := Host.Outcome.next.inj (hv.symm.trans hu)
  have hholds := hwill.holds (by rw [hnone, loaderTransactions_nil])
  exact ⟨hholds.hn, hholds.hd1, hholds.hs, hholds.hs.trans (hexnum_mod _ 16)⟩

/-! ### HEXSTR -/

/-- Once the pending events have run, IN is the backward scan of ds: a HEXEND is pending as the last HOST transaction and
the loader will hold ds, or no HOST transaction is pending and IN is that already. -/
inductive InWillBePacked (ds : List (BitVec 4)) (s : State) : Prop where
  | pending (earlier : List Transaction) (hhost : hostTransactions s.events = earlier ++ [asmCommand .hexend])
      (hwill : LoaderWillHold ds s)
  | packed (hhost : hostTransactions s.events = []) (hin : s.inReg = refPack ds)

section
variable {ds : List (BitVec 4)} {s t : State}

/-- With no other HOST transaction pending the loader holds the string already, and HEXEND packs it. -/
theorem LoaderWillHold.inReg_of_hexend {rest : List Event} (h : LoaderWillHold ds s)
    (hhost : hostTransactions s.events = [asmCommand .hexend])
    (hexec : exec (decodeBus (asmCommand .hexend)) { s with events := rest } = .next t) : t.inReg = refPack ds := by
  have hnone : loaderTransactions s.events = [] := by
    rw [loaderTransactions, hhost]
    rfl
  obtain rfl := Host.Outcome.next.inj ((exec_decodeBus_command .hexend _).symm.trans hexec)
  exact (h.holds hnone).packHex_eq_refPack

theorem InWillBePacked.step (hreset : noReset s.events) (h : InWillBePacked ds s) (hstep : step s = .next t) :
    InWillBePacked ds t := by
  obtain ⟨rest, he, -⟩ | ⟨hr, tr, rest, he, heff⟩ | ⟨-, rest, he, rfl⟩ := step_cases s t hstep
  · exact absurd (he ▸ List.mem_cons_self) hreset
  · have hnext : hostTransactions s.events = tr :: hostTransactions t.events := by
      rw [he, heff.events_eq]
      rfl
    cases h with
    | packed hhost => cases hnext.symm.trans hhost
    | pending earlier hhost hwill =>
      cases earlier with
      | nil =>
        obtain ⟨rfl, hlater⟩ := List.cons.inj (hnext.symm.trans hhost)
        exact .packed hlater (hwill.inReg_of_hexend hhost ((step_of_host hr he).symm.trans hstep))
      | cons tr' earlier =>
        obtain ⟨-, hlater⟩ := List.cons.inj (hnext.symm.trans hhost)
        exact .pending earlier hlater (hwill.step hreset hstep)
  · have hsame : hostTransactions (engineEvent { s with events := rest }).events = hostTransactions s.events := by
      obtain he | ⟨he, rfl⟩ := he
      · rw [engineEvent_events, he]
        rfl
      · rw [engineEvent_events, he]
    cases h with
    | pending earlier hhost hwill => exact .pending earlier (hsame.trans hhost) (hwill.step hreset hstep)
    | packed hhost hin => exact .packed (hsame.trans hhost) ((engineEvent_inReg _).trans hin)

end

theorem filter_isLoaderTransaction_asmHexstr (chars : List (BitVec 8)) :
    (asmHexstr chars).filter isLoaderTransaction =
      asmCommand .hexclr :: chars.map (fun c => asmCommand (.hexdig c)) := by
  have hdigits : (chars.map (fun c => asmCommand (.hexdig c))).filter isLoaderTransaction =
      chars.map (fun c => asmCommand (.hexdig c)) := by
    rw [List.filter_eq_self, List.forall_mem_map]
    exact fun c _ => isLoaderTransaction_hexdig c
  have hend : [asmCommand .hexend].filter isLoaderTransaction = [] := rfl
  rw [asmHexstr, List.filter_cons_of_pos isLoaderTransaction_hexclr, List.filter_append, hdigits, hend, List.append_nil]

/-- Settles O40: HEXSTR's transactions start `InWillBePacked` from any state, every step keeps it, and no HEXEND is pending
after the last event. -/
theorem hexstrEqualsTheBackwardScan : Obligations.HexstrEqualsTheBackwardScan := by
  intro s chars evs hr hreset hhost
  have hloader : loaderTransactions evs = asmCommand .hexclr :: chars.map (fun c => asmCommand (.hexdig c)) := by
    rw [loaderTransactions, hhost, filter_isLoaderTransaction_asmHexstr]
  have hstart : InWillBePacked (digitsOf chars) { s with events := evs } :=
    .pending (asmCommand .hexclr :: chars.map (fun c => asmCommand (.hexdig c))) hhost (.cleared [] chars hloader rfl)
  obtain ⟨u, hu, hnone, hpacked⟩ := run_keeps (fun _ _ => InWillBePacked.step) hr hreset hstart
  refine ⟨u, hu, ?_⟩
  cases hpacked with
  | pending earlier hend => simp [hnone, hostTransactions] at hend
  | packed _ hin => exact hin

end Sys2Proof.Machine
end

section
/-! SUPPORT. Proofs about the report (43_report.md R106): the value of a pattern in terms of the slicer's fields. -/

namespace Sys2Proof.Machine

theorem patternExponent_eq_sliceBexp (f : Format) (x : Word) : patternExponent f x = (sliceBexp f x).toNat :=
  (sliceBexp_toNat f x).symm

/-- R80, R106: the slicer's fields determine the pattern's value. -/
theorem patternValue_eq_slices (f : Format) (x : Word) :
    patternValue f x = (-1) ^ (sliceSign f x).toNat * 2 ^ (sliceUexp f x).toInt
      * (1 + ((sliceMfield f x).toNat : ℚ) / 2 ^ ntot f) := by
  rw [patternValue, patternExponent_eq_sliceBexp, sliceSign_toNat, sliceUexp_toInt, sliceMfield_toNat]

/-- Settles O33: the registers hold the slicer's fields of SRC, and the final mantissa is the whole field with the leading 1.
The equation holds for every pattern; that SRC is normal is what makes `patternValue` its IEEE-754 value. -/
theorem fieldsReassembleToTheValue : Obligations.FieldsReassembleToTheValue := by
  intro s h hd _
  obtain ⟨-, hsign, -, huexp, hmfield⟩ := h.fields (.inr hd)
  rw [patternValue_eq_slices, h.dec64_final_mant hd, hsign, huexp, hmfield]

end Sys2Proof.Machine
end

section
/-! SUPPORT. Proofs about errors (60_exceptions.md): every step completes (R111), one command sets at most one flag (R114),
and the block never acts on a flag (R111). -/

namespace Sys2Proof.Machine

/-! ### Every step completes -/

/-- Settles O44: every event completes after a first reset, and no step forgets the reset. -/
theorem everyStepAfterResetCompletes : Obligations.EveryStepAfterResetCompletes := by
  intro s hr
  obtain ⟨t, ht⟩ := exists_step hr
  exact ⟨t, ht, step_resetSeen ht⟩

/-! ### One flag for one command -/

/-- R58: the words 1 and 2 are those of the two decompositions. -/
theorem exists_decodeCommand_eq_decCommand_iff (d : Word) :
    (∃ f, decodeCommand d = .ok (decCommand f)) ↔ d.toNat = 1 ∨ d.toNat = 2 := by
  constructor
  · rintro ⟨f, hd⟩
    obtain rfl := eq_data_of_decodeCommand hd
    cases f with
    | single => exact .inl rfl
    | double => exact .inr rfl
  · rintro (hd | hd)
    · exact ⟨.single, (decodeCommand_eq_ok_iff_toNat d .decs).2 hd⟩
    · exact ⟨.double, (decodeCommand_eq_ok_iff_toNat d .decd).2 hd⟩

/-- R68: the write of a decomposition's word starts it. -/
theorem exec_wr_cmd_of_decCommand {d : Word} {f : Format} (s : State) (hd : decodeCommand d = .ok (decCommand f)) :
    exec (.wr slotCMD d) s = exec (decInstr f) s := by
  obtain rfl := eq_data_of_decodeCommand hd
  exact exec_decodeBus_decCommand f s

/-- R96: the write of a HEXDIG whose code is no digit sets BADDIG alone. -/
theorem exec_wr_cmd_of_badDigit {d : Word} {c : BitVec 8} (s : State) (hd : decodeCommand d = .ok (.hexdig c))
    (hc : hexval c = none) : exec (.wr slotCMD d) s = .next (s.raise .baddig) :=
  (runCommand_ok d s _ hd).trans (exec_hexdig_of_none s hc)

/-- A write to CMD that meets none of the three conditions changes no flag. -/
theorem HostEffect.flagSet_of_no_error {s t : State} {tr : Transaction} (h : HostEffect s tr t) (hwe : tr.we = true)
    (ha : tr.a = slotCMD) (hill : ¬∃ e, decodeCommand tr.d = .error e)
    (hovr : ¬((tr.d.toNat = 1 ∨ tr.d.toNat = 2) ∧ s.status.busy = true))
    (hbad : ¬∃ c, decodeCommand tr.d = .ok (.hexdig c) ∧ hexval c = none) (f : ErrorFlag) :
    flagSet t.status f = flagSet s.status f := by
  cases h with
  | nop | hexclr | digit | hexend => rfl
  | accepted fmt => exact statusAccept_flagSet s.status fmt f
  | illegal d e hd => exact absurd ⟨e, hd⟩ hill
  | dropped fmt d hd hb => exact absurd ⟨(exists_decodeCommand_eq_decCommand_iff d).1 ⟨fmt, hd⟩, hb⟩ hovr
  | badDigit d c hd hc => exact absurd ⟨c, hd, hc⟩ hbad
  | read => cases hwe
  | clear => exact absurd ha (by decide : slotSTATUS ≠ slotCMD)
  | load => exact absurd ha (by decide : slotIN ≠ slotCMD)
  | badWrite a d hge =>
    obtain rfl : a = slotCMD := ha
    exact absurd hge (by decide)

/-- Settles O42: each of the three conditions is one `raise`, and what is left raises nothing. -/
theorem oneCommandSetsAtMostOneFlag : Obligations.OneCommandSetsAtMostOneFlag := by
  intro d s
  obtain ⟨t, ht, heff⟩ := exec_decodeBus_effect (asmWr slotCMD d) s
  have raised (e : ErrorFlag) (h : exec (.wr slotCMD d) s = .next (s.raise e)) (f : ErrorFlag) :
      flagSet t.status f = (flagSet s.status f || decide (f = e)) := by
    obtain rfl := Host.Outcome.next.inj (ht.symm.trans h)
    exact flagSet_setFlag s.status e f
  refine ⟨t, ht, ?_, ?_, ?_, heff.flagSet_of_no_error rfl rfl⟩
  · rintro ⟨e, hd⟩
    exact raised .ill (exec_wr_cmd_of_illegal s hd)
  · rintro - ⟨hword, hb⟩
    obtain ⟨f, hd⟩ := (exists_decodeCommand_eq_decCommand_iff d).2 hword
    exact raised .ovr ((exec_wr_cmd_of_decCommand s hd).trans (exec_decInstr_of_busy f hb))
  · rintro - - ⟨c, hd, hc⟩
    exact raised .baddig (exec_wr_cmd_of_badDigit s hd hc)

end Sys2Proof.Machine
end

section
/-! SUPPORT. Proof that the block never acts on an error flag (60_exceptions.md R111; 70_reset_and_hazards.md R135): what
each operation does to two states that differ only in the sticky flags, and the step from there. -/

namespace Sys2Proof.Machine

/-! ### A HOST transaction has its one effect -/

/-- The converse of `exec_decodeBus_effect`. -/
theorem HostEffect.exec_eq {s t : State} {tr : Transaction} (h : HostEffect s tr t) : exec (decodeBus tr) s = .next t := by
  cases h with
  | read | clear | load => rfl
  | illegal d e hd => exact exec_wr_cmd_of_illegal s hd
  | nop d hd | hexclr d hd | hexend d hd => exact runCommand_ok d s _ hd
  | dropped f d hd hb => exact (exec_wr_cmd_of_decCommand s hd).trans (exec_decInstr_of_busy f hb)
  | accepted f d hd hb => exact (exec_wr_cmd_of_decCommand s hd).trans (exec_decInstr_of_idle f hb)
  | badDigit d c hd hc => exact exec_wr_cmd_of_badDigit s hd hc
  | digit d c v hd hc => exact (runCommand_ok d s _ hd).trans (exec_hexdig_of_some s hc)
  | badWrite a d ha => exact exec_wr_of_three_le d s ha

/-! ### States that differ only in the sticky flags -/

theorem sameButFlags_refl (s : State) : SameButFlags s s := ⟨s.status, rfl, rfl, rfl, rfl⟩

section
variable {s s' : State} (h : SameButFlags s s')
include h

theorem SameButFlags.busy_eq : s'.status.busy = s.status.busy := by
  obtain ⟨f, hb, -, -, rfl⟩ := h
  exact hb

theorem SameButFlags.resetSeen_eq : s'.resetSeen = s.resetSeen := by
  obtain ⟨f, -, -, -, rfl⟩ := h
  rfl

theorem SameButFlags.events_eq : s'.events = s.events := by
  obtain ⟨f, -, -, -, rfl⟩ := h
  rfl

/-- R66: no slot but STATUS shows a flag. -/
theorem SameButFlags.readSlot_eq {a : Slot} (ha : a ≠ slotSTATUS) : readSlot s a = readSlot s' a := by
  obtain ⟨f, -, -, -, rfl⟩ := h
  have hne : a.toNat ≠ 0x01 := fun hn => ha (BitVec.eq_of_toNat_eq hn)
  simp only [readSlot, if_neg hne]

/-- An operation that neither reads nor writes STATUS carries the flags along. -/
theorem SameButFlags.map {g : State → State} (hg : ∀ u f, g { u with status := f } = { g u with status := f }) :
    SameButFlags (g s) (g s') := by
  obtain ⟨f, hb, hd, hf, rfl⟩ := h
  have hs : (g s).status = s.status := (congrArg State.status (hg s s.status) :)
  rw [← hs] at hb hd hf
  exact ⟨f, hb, hd, hf, hg s f⟩

theorem SameButFlags.withEvents (events : List Event) :
    SameButFlags { s with events := events } { s' with events := events } :=
  h.map (g := fun u => { u with events := events }) fun _ _ => rfl

theorem SameButFlags.raise (e : ErrorFlag) : SameButFlags (s.raise e) (s'.raise e) := by
  obtain ⟨f, hb, hd, hf, rfl⟩ := h
  exact ⟨setFlag f e, by simpa using hb, by simpa using hd, by simpa using hf, rfl⟩

theorem SameButFlags.clearFlags (d : Word) : SameButFlags (s.clearFlags d) (s'.clearFlags d) := by
  obtain ⟨f, hb, hd, hf, rfl⟩ := h
  exact ⟨Machine.clearFlags f d, hb, hd, hf, rfl⟩

theorem SameButFlags.noteRead (a : Slot) : SameButFlags (noteRead a s) (noteRead a s') := by
  unfold Machine.noteRead
  split
  · exact h.raise .badreg
  · exact h

/-- R76: acceptance keeps the flags and reads none. -/
theorem SameButFlags.acceptDecomposition (fmt : Format) :
    SameButFlags (acceptDecomposition fmt s) (acceptDecomposition fmt s') := by
  obtain ⟨f, -, -, -, rfl⟩ := h
  exact ⟨statusAccept f fmt, rfl, rfl, rfl, rfl⟩

/-- R83: the ENGINE step reads FMT of STATUS and no flag. -/
theorem SameButFlags.engineStep : SameButFlags (engineStep s) (engineStep s') := by
  obtain ⟨f, hb, hd, hf, rfl⟩ := h
  by_cases hlast : s.kcnt.toNat + 1 = ntot s.status.fmt
  · refine ⟨statusComplete f, ?_, ?_, ?_, ?_⟩ <;> simp [Machine.engineStep, hlast, hf]
  · refine ⟨f, ?_, ?_, ?_, ?_⟩ <;> simp [Machine.engineStep, hlast, hb, hd, hf]

theorem SameButFlags.engineEvent : SameButFlags (engineEvent s) (engineEvent s') := by
  unfold Machine.engineEvent
  rw [h.busy_eq]
  split
  · exact h.engineStep
  · exact h

end

/-! ### The step -/

/-- Nothing differs but the flags and, where `shown` holds, the data returned. -/
def SameButFlagsShown (shown : Prop) (t t' : State) : Prop :=
  SameButFlags { t with rdata := t'.rdata } t' ∧ (t.rdata = t'.rdata ∨ shown)

theorem SameButFlags.notShown {t t' : State} (h : SameButFlags t t') {shown : Prop} : SameButFlagsShown shown t t' := by
  obtain ⟨f, hb, hd, hf, rfl⟩ := h
  exact ⟨⟨f, hb, hd, hf, rfl⟩, .inl rfl⟩

/-- R66: the data of a RD shows a flag for STATUS alone. -/
theorem SameButFlags.read {s s' : State} (h : SameButFlags s s') (a : Slot) :
    SameButFlagsShown (a = slotSTATUS) { Machine.noteRead a s with rdata := readSlot s a }
      { Machine.noteRead a s' with rdata := readSlot s' a } := by
  have hsame := (h.noteRead a).map (g := fun u => { u with rdata := readSlot s' a }) fun _ _ => rfl
  by_cases ha : a = slotSTATUS
  · exact ⟨hsame, .inr ha⟩
  · exact ⟨hsame, .inl (h.readSlot_eq ha)⟩

/-- A transaction has the same kind of effect whatever the flags are, for BUSY alone of STATUS decides between two. -/
theorem HostEffect.exists_of_sameButFlags {s s' t : State} {tr : Transaction} (heff : HostEffect s tr t)
    (h : SameButFlags s s') :
    ∃ t', HostEffect s' tr t' ∧ SameButFlagsShown (∃ d, tr = { we := false, a := slotSTATUS, d := d }) t t' := by
  cases heff with
  | read a d =>
    obtain ⟨hsame, hdata⟩ := h.read a
    exact ⟨_, .read a d, hsame, hdata.imp_right fun (ha : a = slotSTATUS) => ⟨d, ha ▸ rfl⟩⟩
  | illegal d e hd => exact ⟨_, .illegal d e hd, (h.raise .ill).notShown⟩
  | nop d hd => exact ⟨_, .nop d hd, h.notShown⟩
  | dropped f d hd hb => exact ⟨_, .dropped f d hd (h.busy_eq.trans hb), (h.raise .ovr).notShown⟩
  | accepted f d hd hb => exact ⟨_, .accepted f d hd (h.busy_eq.trans hb), (h.acceptDecomposition f).notShown⟩
  | hexclr d hd =>
    have hsame := h.map (g := fun u => { u with hn := 0, hd1 := 0, hs := 0 }) fun _ _ => rfl
    exact ⟨_, .hexclr d hd, hsame.notShown⟩
  | badDigit d c hd hc => exact ⟨_, .badDigit d c hd hc, (h.raise .baddig).notShown⟩
  | digit d c v hd hc => exact ⟨_, .digit d c v hd hc, (h.map (g := pushDigit v) fun _ _ => rfl).notShown⟩
  | hexend d hd =>
    have hsame := h.map (g := fun u => { u with inReg := packHex u.hn u.hd1 u.hs }) fun _ _ => rfl
    exact ⟨_, .hexend d hd, hsame.notShown⟩
  | clear d => exact ⟨_, .clear d, (h.clearFlags d).notShown⟩
  | load d =>
    have hsame := h.map (g := fun u => { u with inReg := d }) fun _ _ => rfl
    exact ⟨_, .load d, hsame.notShown⟩
  | badWrite a d ha => exact ⟨_, .badWrite a d ha, (h.raise .badreg).notShown⟩

/-- Settles O45: both states take the same next event. -/
theorem theBlockNeverActsOnAFlag : Obligations.TheBlockNeverActsOnAFlag := by
  intro s s' hr h
  have hr' : s'.resetSeen = true := h.resetSeen_eq.trans hr
  cases he : s.events with
  | nil => exact ⟨_, _, step_of_nil hr he, step_of_nil hr' (h.events_eq.trans he), h.engineEvent.notShown⟩
  | cons e rest =>
    have he' : s'.events = e :: rest := h.events_eq.trans he
    cases e with
    | reset => exact ⟨_, _, step_of_reset he, step_of_reset he', (sameButFlags_refl _).notShown⟩
    | engine => exact ⟨_, _, step_of_engine hr he, step_of_engine hr' he', (h.withEvents rest).engineEvent.notShown⟩
    | host tr =>
      obtain ⟨t, ht, heff⟩ := exec_decodeBus_effect tr { s with events := rest }
      obtain ⟨t', heff', hsame, hdata⟩ := heff.exists_of_sameButFlags (h.withEvents rest)
      refine ⟨t, t', (step_of_host hr he).trans ht, (step_of_host hr' he').trans heff'.exec_eq, hsame, ?_⟩
      exact hdata.imp_right fun ⟨d, htr⟩ => ⟨d, rest, htr ▸ rfl⟩

end Sys2Proof.Machine
end

section
/-! SUPPORT. Proof that nothing but a reset has meaning before the first reset (70_reset_and_hazards.md R126). -/

namespace Sys2Proof.Machine

theorem step_refused_before_first_reset {s : State} {e : Event} {rest : List Event} (hr : s.resetSeen = false)
    (he : s.events = e :: rest) (hne : e ≠ .reset) : step s = .refused .beforeFirstReset := by
  rw [step, nextEvent_cons s e rest he]
  have hnot : ¬ s.resetSeen = true := Bool.eq_false_iff.mp hr
  cases e with
  | reset => exact absurd rfl hne
  | host tr => exact if_neg hnot
  | engine => exact if_neg hnot

/-- Settles O50: a reset is the only event whose step does not look at `resetSeen`. -/
theorem nothingRunsBeforeTheFirstReset : Obligations.NothingRunsBeforeTheFirstReset := by
  intro s rest hr
  refine ⟨fun tr he => ?_, fun he => ?_, fun he => ?_⟩
  · exact step_refused_before_first_reset hr he Event.noConfusion
  · exact step_refused_before_first_reset hr he Event.noConfusion
  · exact ⟨_, step_of_reset he, rfl⟩

end Sys2Proof.Machine
end
